-- ==== Sys2Proof/Word.lean ====
section
/-! DEFINITION. The machine's word types: the 32-bit command, result and SHA-1 word, and the byte
(spec/20_memory.md R57, spec/00_scope.md R9). -/

namespace Sys2Proof

/-- A 32-bit unsigned word: a command word, a result word or a SHA-1 word. -/
abbrev Word := BitVec 32

/-- An 8-bit unsigned byte: a message, payload, key or header byte. -/
abbrev Byte := BitVec 8

end Sys2Proof
end

