-- ==== Sys2Proof/Syntax.lean ====
section
/-! DEFINITION. The commands of WS-CORE, one constructor per row of the opcode map
(spec/30_encoding.md R72), each operand at the width of its field (R71, R73). -/

namespace Sys2Proof

/-- One decoded command. -/
inductive Instr where
  /-- NOP, format N (R100). -/
  | nop
  /-- STAT, format N (R101). -/
  | stat
  /-- HASH_INIT, format N (R134). -/
  | hashInit
  /-- HASH_ABSORB, format B: one client-key byte (R135). -/
  | hashAbsorb (data : Byte)
  /-- HASH_FINAL, format N (R136). -/
  | hashFinal
  /-- HASH_RDDIG, format I: digest word index (R139). -/
  | hashRddig (idx : BitVec 3)
  /-- HASH_RDACC, format I: accept group index (R140). -/
  | hashRdacc (idx : BitVec 3)
  /-- FHC_DEC, format H: header bytes 0 and 1 (R166). -/
  | fhcDec (hb0 hb1 : Byte)
  /-- FHC_ENC_TEXT, format L: message byte length (R167). -/
  | fhcEncText (len : BitVec 16)
  /-- FHC_ENC_CLOSE, format N (R168). -/
  | fhcEncClose
  /-- XM_KEY, format K: key byte index and key byte (R193). -/
  | xmKey (kidx : BitVec 2) (data : Byte)
  /-- XM_XOR, format B: one payload byte (R194). -/
  | xmXor (data : Byte)
  /-- XM_REWIND, format N (R195). -/
  | xmRewind
  deriving DecidableEq, Repr

end Sys2Proof
end

