-- ==== Sys2Proof/Decode.lean ====
section
/-! DEFINITION. The decoder of spec/30_encoding.md R78, total over all 2^32 words, and the encoder
written from the bit patterns of R71 and the opcode map of R72. -/

namespace Sys2Proof

/-- R71: the six formats. -/
inductive Format where
  | N
  | B
  | I
  | H
  | L
  | K
  deriving DecidableEq, Repr

/-- R78: the bits each format marks reserved. -/
def reservedBits : Format → Word
  | .N => 0x00FFFFFF
  | .B => 0x00FFFF00
  | .I => 0x00FFFFF8
  | .H => 0x00FF0000
  | .L => 0x00FF0000
  | .K => 0x00FCFF00

/-- Why a word is no command. Both reasons are E_ILLEGAL to the block (R74, R75). -/
inductive DecodeError where
  /-- The opcode byte is not in the map of R72 (R75). -/
  | unassignedOpcode
  /-- The opcode is assigned and a bit its format marks `0` is set (R74). -/
  | reservedBitSet
  deriving DecidableEq, Repr

/-- R70: the opcode, `cmd[31:24]`. -/
def opcOf (cmd : Word) : Byte := cmd.extractLsb' 24 8

/-- R73: `DATA = cmd[7:0]`. -/
def dataOf (cmd : Word) : Byte := cmd.extractLsb' 0 8

/-- R73: `IDX = cmd[2:0]`. -/
def idxOf (cmd : Word) : BitVec 3 := cmd.extractLsb' 0 3

/-- R73: `HB0 = cmd[15:8]`. -/
def hb0Of (cmd : Word) : Byte := cmd.extractLsb' 8 8

/-- R73: `HB1 = cmd[7:0]`. -/
def hb1Of (cmd : Word) : Byte := cmd.extractLsb' 0 8

/-- R73: `LEN = cmd[15:0]`. -/
def lenOf (cmd : Word) : BitVec 16 := cmd.extractLsb' 0 16

/-- R73: `KIDX = cmd[17:16]`. -/
def kidxOf (cmd : Word) : BitVec 2 := cmd.extractLsb' 16 2

/-- R72: the row an opcode names, as its format and the command with the fields of R71 read from
`cmd`; `none` for an unassigned opcode (R75). -/
def rowOf (opc : Byte) (cmd : Word) : Option (Format × Instr) :=
  match opc with
  | 0x00#8 => some (.N, .nop)
  | 0x01#8 => some (.N, .stat)
  | 0x10#8 => some (.N, .hashInit)
  | 0x11#8 => some (.B, .hashAbsorb (dataOf cmd))
  | 0x12#8 => some (.N, .hashFinal)
  | 0x13#8 => some (.I, .hashRddig (idxOf cmd))
  | 0x14#8 => some (.I, .hashRdacc (idxOf cmd))
  | 0x20#8 => some (.H, .fhcDec (hb0Of cmd) (hb1Of cmd))
  | 0x21#8 => some (.L, .fhcEncText (lenOf cmd))
  | 0x22#8 => some (.N, .fhcEncClose)
  | 0x30#8 => some (.K, .xmKey (kidxOf cmd) (dataOf cmd))
  | 0x31#8 => some (.B, .xmXor (dataOf cmd))
  | 0x32#8 => some (.N, .xmRewind)
  | _ => none

/-- R78: the decoder. -/
def decode (cmd : Word) : Except DecodeError Instr :=
  match rowOf (opcOf cmd) cmd with
  | none => .error .unassignedOpcode
  | some (f, i) => if cmd &&& reservedBits f = 0 then .ok i else .error .reservedBitSet

/-- R72: a command's format. -/
def Instr.format : Instr → Format
  | .nop => .N
  | .stat => .N
  | .hashInit => .N
  | .hashAbsorb _ => .B
  | .hashFinal => .N
  | .hashRddig _ => .I
  | .hashRdacc _ => .I
  | .fhcDec _ _ => .H
  | .fhcEncText _ => .L
  | .fhcEncClose => .N
  | .xmKey _ _ => .K
  | .xmXor _ => .B
  | .xmRewind => .N

/-- R72: a command's opcode byte. -/
def Instr.opcode : Instr → Byte
  | .nop => 0x00
  | .stat => 0x01
  | .hashInit => 0x10
  | .hashAbsorb _ => 0x11
  | .hashFinal => 0x12
  | .hashRddig _ => 0x13
  | .hashRdacc _ => 0x14
  | .fhcDec _ _ => 0x20
  | .fhcEncText _ => 0x21
  | .fhcEncClose => 0x22
  | .xmKey _ _ => 0x30
  | .xmXor _ => 0x31
  | .xmRewind => 0x32

/-- R71: the operand field `cmd[23:0]` of a command, by its format's bit pattern. -/
def Instr.operandField : Instr → BitVec 24
  | .nop => 0#24
  | .stat => 0#24
  | .hashInit => 0#24
  | .hashAbsorb data => 0#16 ++ data
  | .hashFinal => 0#24
  | .hashRddig idx => 0#21 ++ idx
  | .hashRdacc idx => 0#21 ++ idx
  | .fhcDec hb0 hb1 => 0#8 ++ hb0 ++ hb1
  | .fhcEncText len => 0#8 ++ len
  | .fhcEncClose => 0#24
  | .xmKey kidx data => 0#6 ++ kidx ++ 0#8 ++ data
  | .xmXor data => 0#16 ++ data
  | .xmRewind => 0#24

/-- R72: the units of the opcode map. -/
inductive BlockUnit where
  | core
  | sha
  | fhc
  | xm
  deriving DecidableEq, Repr

/-- R72: the unit a command belongs to. -/
def Instr.unit : Instr → BlockUnit
  | .nop => .core
  | .stat => .core
  | .hashInit => .sha
  | .hashAbsorb _ => .sha
  | .hashFinal => .sha
  | .hashRddig _ => .sha
  | .hashRdacc _ => .sha
  | .fhcDec _ _ => .fhc
  | .fhcEncText _ => .fhc
  | .fhcEncClose => .fhc
  | .xmKey _ _ => .xm
  | .xmXor _ => .xm
  | .xmRewind => .xm

/-- R70: the command word: the opcode in `cmd[31:24]`, the operand field in `cmd[23:0]`. -/
def encode (i : Instr) : Word := i.opcode ++ i.operandField

/-- The command word an opcode-table row's number stands for: the table numbers a word's bits as the
spec does, and every bit from `nbits` up is 0. A command has 32 bits and no more (R70, R77), so a
longer row gives none. -/
def tableWord (nbits w : Nat) : Option Word :=
  if nbits ≤ 32 then some (BitVec.ofNat 32 (w % 2 ^ nbits)) else none

/-- What the decoder reads from an instruction of the opcode table whose bits are `w`. -/
def decodeTableWord (nbits w : Nat) : Option Instr :=
  match tableWord nbits w with
  | none => none
  | some cmd =>
    match decode cmd with
    | .ok i => some i
    | .error _ => none

end Sys2Proof
end

