-- ==== Sys2Proof/Config.lean ====
section
/-! DEFINITION. What is fixed for the block (spec/00_scope.md R6) and what the spec leaves to the
host (spec/45_host_protocol.md R213, R217). The spec leaves no parameter of the block open, and no
command has an undefined result, so there is no free value here. -/

namespace Sys2Proof.Config

/-- R6: `DIGEST_BYTES`. -/
def digestLength : Nat := 20

/-- R6: `ACCEPT_CHARS`. -/
def acceptLength : Nat := 28

/-- R6: `HDR_BYTES`. -/
def headerLength : Nat := 2

/-- R6: `KEY_BYTES`, the masking key's length. -/
def keyLength : Nat := 4

/-- R6: `PLEN_MAX`, the largest payload length a header can carry. -/
def plenMax : Nat := 127

/-- R6: `MBYTES_MAX`, the largest number of hashed message bytes. -/
def mbytesMax : Nat := 2 ^ 61 - 1

/-- R213, I4: how the host finds the key's header line. -/
inductive KeyMatch where
  /-- `KEY_MATCH = Substring`: the line contains the header name. -/
  | substring
  /-- `KEY_MATCH = Prefix`: the line begins with the header name. -/
  | exactPrefix
  deriving DecidableEq, Repr

/-- The host's parameters: the key match (R213) and the fixed reply text's bytes (R217, I9). -/
structure HostParams where
  keyMatch : KeyMatch
  reply : List Byte
  deriving DecidableEq, Repr

end Sys2Proof.Config
end

