-- ==== Sys2Proof/Machine/State.lean ====
section
/-! DEFINITION. WS-CORE's architectural state (spec/10_state.md R20), the block's two ports as plain
data, the reasons a step can stop, and the state after reset (R36). -/

namespace Sys2Proof.Machine

/-- R23: SHA-1's chaining state, the five words `S.H[0..4]`. -/
structure Chain where
  h0 : Word
  h1 : Word
  h2 : Word
  h3 : Word
  h4 : Word
  deriving DecidableEq, Repr

/-- R27: the hasher's state `S.HST`; the 2-bit value 3 is never held (log entry 7). -/
inductive HState where
  /-- 0, no message started. -/
  | idle
  /-- 1, a message is in progress. -/
  | absorb
  /-- 2, the digest is final and readable. -/
  | done
  deriving DecidableEq, Repr

/-- spec/60_exceptions.md R241: the status codes 0 to 7; no command returns 8 to 15. -/
inductive Status where
  /-- 0. -/
  | ok
  /-- 1, an unassigned opcode or a reserved bit set. -/
  | illegal
  /-- 2, FHC_DEC of an opcode not in {1, 8, 9, 10}. -/
  | unknownOpcode
  /-- 3, FHC_ENC_TEXT of a length above 127. -/
  | length
  /-- 4, a HASH_* command in the wrong HST. -/
  | hashState
  /-- 5, HASH_ABSORB at the message length limit. -/
  | hashOverflow
  /-- 6, a readout index out of range. -/
  | range
  /-- 7, XM_XOR before all four key bytes were written. -/
  | noKey
  deriving DecidableEq, Repr

/-- R32: what the block answers to one command. -/
structure Response where
  status : Status
  result : Word
  deriving DecidableEq, Repr

/-- What the outside hands to the block. -/
inductive Input where
  /-- A command word from the host (spec/20_memory.md R57). -/
  | command (cmd : Word)
  /-- The platform's reset input (spec/70_reset_and_hazards.md R270). -/
  | reset
  deriving DecidableEq, Repr

/-- The block's state. The first nine fields are R20's elements; the last two are the block's input
and output ports (log entries 1 and 2). -/
structure State where
  /-- `S.H[0..4]`, R23. -/
  h : Chain
  /-- `S.BUF[0..63]`, R24. -/
  buf : Vector Byte 64
  /-- `S.BLEN`, R25. -/
  blen : BitVec 6
  /-- `S.MBYTES`, R26. -/
  mbytes : BitVec 61
  /-- `S.HST`, R27. -/
  hst : HState
  /-- `S.KEY[0..3]`, R28. -/
  key : Vector Byte 4
  /-- `S.KEYV`, R29. -/
  keyv : BitVec 4
  /-- `S.PHASE`, R30. -/
  phase : BitVec 2
  /-- `S.ERRLOG`, R31. -/
  errlog : BitVec 8
  /-- Inputs handed over and not yet accepted, oldest first. -/
  inputs : List Input
  /-- Responses emitted, oldest first; nothing in the block reads them (R32). -/
  responses : List Response
  deriving DecidableEq, Repr

/-- A reason the machine stops. There is none: the spec's only exception mechanism is the status of a
response, after which the next command runs normally (spec/60_exceptions.md R240; log entry 10). -/
inductive Fault where
  deriving DecidableEq, Repr

/-- A reason an instruction has no meaning here. -/
inductive Refusal where
  /-- Raised by an arm of `exec` whose instruction is not modelled yet; safe. No arm raises it. -/
  | notModelled (mnemonic : String)
  deriving DecidableEq, Repr

/-- R36: the state after reset. HST, BLEN, MBYTES, KEYV, PHASE and ERRLOG have the values the spec
states. The spec leaves H, BUF and KEY unspecified; 0 is the model's DESIGN CHOICE, unsafe (log
entry 4). The ports are empty, DESIGN CHOICE (log entries 1 and 2). -/
def State.reset : State where
  h := ⟨0, 0, 0, 0, 0⟩
  buf := Vector.replicate 64 0
  blen := 0
  mbytes := 0
  hst := .idle
  key := Vector.replicate 4 0
  keyv := 0
  phase := 0
  errlog := 0
  inputs := []
  responses := []

end Sys2Proof.Machine
end

