-- ==== Sys2Proof/Machine/Sha1.lean ====
section
/-! DEFINITION. SHA-1 as spec/41_sha1_hasher.md R121 to R129 defines it: the fixed GUID, the
compression of one block, and the digest of a whole message. -/

namespace Sys2Proof.Machine

/-- R9: `rotl_n(x)`, the left rotation of a word by `n` bits. -/
def rotl (n : Nat) (x : Word) : Word := (x <<< n) ||| (x >>> (32 - n))

/-- R121: the 36 bytes of the fixed GUID. -/
def guid : List Byte :=
  [0x32, 0x35, 0x38, 0x45, 0x41, 0x46, 0x41, 0x35, 0x2D, 0x45, 0x39, 0x31,
   0x34, 0x2D, 0x34, 0x37, 0x44, 0x41, 0x2D, 0x39, 0x35, 0x43, 0x41, 0x2D,
   0x43, 0x35, 0x41, 0x42, 0x30, 0x44, 0x43, 0x38, 0x35, 0x42, 0x31, 0x31]

/-- R122: the initial chaining values. -/
def sha1Init : Chain := ⟨0x67452301, 0xEFCDAB89, 0x98BADCFE, 0x10325476, 0xC3D2E1F0⟩

/-- R124: the big-endian words of a block's bytes, four bytes a word. -/
def blockWords : List Byte → List Word
  | a :: b :: c :: d :: rest => (a ++ b ++ c ++ d : BitVec 32) :: blockWords rest
  | _ => []

/-- R125: `n` more schedule words; the words so far stand newest first, so that `W[t-3]`, `W[t-8]`,
`W[t-14]` and `W[t-16]` are at 2, 7, 13 and 15. -/
def extendSchedule : Nat → List Word → List Word
  | 0, ws => ws
  | n + 1, ws =>
    extendSchedule n
      (rotl 1 (ws.getD 2 0 ^^^ ws.getD 7 0 ^^^ ws.getD 13 0 ^^^ ws.getD 15 0) :: ws)

/-- R124, R125: the 80 schedule words of a 64-byte block, `W[0]` first. -/
def schedule (block : List Byte) : List Word :=
  (extendSchedule 64 (blockWords block).reverse).reverse

/-- R126: `f_t(b, c, d)`. -/
def roundFn (t : Nat) (b c d : Word) : Word :=
  if t < 20 then (b &&& c) ||| (~~~b &&& d)
  else if t < 40 then b ^^^ c ^^^ d
  else if t < 60 then (b &&& c) ||| (b &&& d) ||| (c &&& d)
  else b ^^^ c ^^^ d

/-- R126: `K_t`. -/
def roundConst (t : Nat) : Word :=
  if t < 20 then 0x5A827999
  else if t < 40 then 0x6ED9EBA1
  else if t < 60 then 0x8F1BBCDC
  else 0xCA62C1D6

/-- R127: round `t` with schedule word `w`; the fields `h0` to `h4` hold `a` to `e`. -/
def sha1Round (t : Nat) (w : Word) (c : Chain) : Chain where
  h0 := rotl 5 c.h0 + roundFn t c.h1 c.h2 c.h3 + c.h4 + roundConst t + w
  h1 := c.h0
  h2 := rotl 30 c.h1
  h3 := c.h2
  h4 := c.h3

/-- R127: the rounds from `t` on, one for each schedule word. -/
def sha1Rounds : Nat → List Word → Chain → Chain
  | _, [], c => c
  | t, w :: ws, c => sha1Rounds (t + 1) ws (sha1Round t w c)

/-- R128: the word-by-word sum of two chaining states, mod 2^32 (R131). -/
def Chain.add (x y : Chain) : Chain :=
  ⟨x.h0 + y.h0, x.h1 + y.h1, x.h2 + y.h2, x.h3 + y.h3, x.h4 + y.h4⟩

/-- R128: `compress(H, B)`. -/
def compress (h : Chain) (block : List Byte) : Chain :=
  Chain.add h (sha1Rounds 0 (schedule block) h)

/-- R128: compression of the first `n` 64-byte blocks of `bytes`, in order. -/
def compressBlocks : Nat → Chain → List Byte → Chain
  | 0, h, _ => h
  | n + 1, h, bytes => compressBlocks n (compress h (bytes.take 64)) (bytes.drop 64)

/-- R123: the 8-byte big-endian encoding of a 64-bit length. -/
def lengthBytes (l : BitVec 64) : List Byte :=
  [l.extractLsb' 56 8, l.extractLsb' 48 8, l.extractLsb' 40 8, l.extractLsb' 32 8,
   l.extractLsb' 24 8, l.extractLsb' 16 8, l.extractLsb' 8 8, l.extractLsb' 0 8]

/-- R123: `z`, the least count of zero bytes with `(n + 1 + z) mod 64 = 56`. -/
def padZeros (n : Nat) : Nat := (119 - n % 64) % 64

/-- R123: what follows a message of `n` bytes whose bit length is `l`: `[0x80] ++ Z ++ L64`. -/
def sha1Padding (n : Nat) (l : BitVec 64) : List Byte :=
  0x80#8 :: (List.replicate (padZeros n) 0#8 ++ lengthBytes l)

/-- R123: the padded message. -/
def sha1Padded (m : List Byte) : List Byte :=
  m ++ sha1Padding m.length (BitVec.ofNat 64 (8 * m.length))

/-- R128: `SHA1(M)`, as chaining words. -/
def sha1 (m : List Byte) : Chain :=
  compressBlocks ((sha1Padded m).length / 64) sha1Init (sha1Padded m)

/-- spec/20_memory.md R52, R53: a word's four bytes, most significant first. -/
def wordBytes (w : Word) : List Byte :=
  [w.extractLsb' 24 8, w.extractLsb' 16 8, w.extractLsb' 8 8, w.extractLsb' 0 8]

/-- R129: the 20 digest bytes. -/
def digestBytes (c : Chain) : List Byte :=
  wordBytes c.h0 ++ wordBytes c.h1 ++ wordBytes c.h2 ++ wordBytes c.h3 ++ wordBytes c.h4

end Sys2Proof.Machine
end

