-- ==== Sys2Proof/Machine/Base64.lean ====
section
/-! DEFINITION. Base64 as spec/41_sha1_hasher.md R137 and R138 define it, and the accept value of
R120. -/

namespace Sys2Proof.Machine

/-- R137: the ASCII code of a 6-bit value. -/
def base64Char (v : BitVec 6) : Byte :=
  if v.toNat ≤ 25 then BitVec.ofNat 8 (0x41 + v.toNat)
  else if v.toNat ≤ 51 then BitVec.ofNat 8 (0x61 + (v.toNat - 26))
  else if v.toNat ≤ 61 then BitVec.ofNat 8 (0x30 + (v.toNat - 52))
  else if v.toNat = 62 then 0x2B
  else 0x2F

/-- R137: the pad character `=`. -/
def base64Pad : Byte := 0x3D

/-- R138: base64 of a byte sequence. The digest's 20 bytes are six groups of three and one of two;
the one-byte ending does not occur in the block (PRESUMED, RFC 4648; log entry 8). -/
def base64 : List Byte → List Byte
  | a :: b :: c :: rest =>
    let v : BitVec 24 := a ++ b ++ c
    base64Char (v.extractLsb' 18 6) :: base64Char (v.extractLsb' 12 6) ::
      base64Char (v.extractLsb' 6 6) :: base64Char (v.extractLsb' 0 6) :: base64 rest
  | [a, b] =>
    let v : BitVec 24 := a ++ b ++ 0#8
    [base64Char (v.extractLsb' 18 6), base64Char (v.extractLsb' 12 6),
      base64Char (v.extractLsb' 6 6), base64Pad]
  | [a] =>
    let v : BitVec 24 := a ++ 0#16
    [base64Char (v.extractLsb' 18 6), base64Char (v.extractLsb' 12 6), base64Pad, base64Pad]
  | [] => []

/-- R140: the accept characters held by a final chaining state. -/
def acceptChars (c : Chain) : List Byte := base64 (digestBytes c)

/-- R120: the accept value of a client key, `base64(SHA1(K ++ GUID))`. -/
def acceptValue (k : List Byte) : List Byte := acceptChars (sha1 (k ++ guid))

end Sys2Proof.Machine
end

