-- ==== Sys2Proof/Machine/Flags.lean ====
section
/-! DEFINITION. The status codes and the sticky error log (spec/60_exceptions.md R241, R243), and the
2-bit code of the hasher state (spec/10_state.md R27). WS-CORE has no condition flags: every command
rule says "Flags written: none". -/

namespace Sys2Proof.Machine

/-- R241: a status's 4-bit code. -/
def Status.code : Status → BitVec 4
  | .ok => 0
  | .illegal => 1
  | .unknownOpcode => 2
  | .length => 3
  | .hashState => 4
  | .hashOverflow => 5
  | .range => 6
  | .noKey => 7

/-- R27: the hasher state's 2-bit code. -/
def HState.code : HState → BitVec 2
  | .idle => 0
  | .absorb => 1
  | .done => 2

/-- R243: the error log after a command that completed with status `st`: bit `st` set unless `st` is
OK, no bit cleared. -/
def logStatus (errlog : BitVec 8) (st : Status) : BitVec 8 :=
  if st = .ok then errlog else errlog ||| (1#8 <<< st.code.toNat)

end Sys2Proof.Machine
end

