-- ==== Sys2Proof/Machine/Operands.lean ====
section
/-! DEFINITION. How operands select state and how bytes lie in a result word: the index operands of
spec/41_sha1_hasher.md R139 and R140, the key index of spec/43_masker.md R193 and R194, the lanes of
spec/20_memory.md R51 and R53, and the STAT image of spec/10_state.md R33. -/

namespace Sys2Proof.Machine

/-- R53: four bytes in sequence, the earliest in [31:24]. -/
def pack4 (a b c d : Byte) : Word := a ++ b ++ c ++ d

/-- R51, R53: two bytes in sequence, the earlier in [15:8]. -/
def pack2 (a b : Byte) : Word := 0#16 ++ a ++ b

/-- A byte in the low lane of a result, `zext_32` (R194). -/
def zext32 (b : Byte) : Word := 0#24 ++ b

/-- R139: HASH_RDDIG accepts IDX 0 to 4. -/
def digestIndexOk (idx : BitVec 3) : Bool := idx.toNat ≤ 4

/-- R140: HASH_RDACC accepts IDX 0 to 6. -/
def acceptIndexOk (idx : BitVec 3) : Bool := idx.toNat ≤ 6

/-- R167: FHC_ENC_TEXT accepts LEN 0 to 127. -/
def textLengthOk (len : BitVec 16) : Bool := len.toNat ≤ Config.plenMax

/-- `S.H[idx]` for the indices 0 to 4 that R139 accepts (a larger index is stopped before). -/
def Chain.word (c : Chain) (idx : BitVec 3) : Word :=
  if idx = 0 then c.h0
  else if idx = 1 then c.h1
  else if idx = 2 then c.h2
  else if idx = 3 then c.h3
  else c.h4

/-- R140: the accept characters `A[4*idx]` to `A[4*idx+3]`, packed. -/
def acceptGroup (chars : List Byte) (idx : BitVec 3) : Word :=
  pack4 (chars.getD (4 * idx.toNat) 0) (chars.getD (4 * idx.toNat + 1) 0)
    (chars.getD (4 * idx.toNat + 2) 0) (chars.getD (4 * idx.toNat + 3) 0)

/-- R28: `S.KEY[j]`. -/
def State.keyByte (s : State) (j : BitVec 2) : Byte := s.key[j.toNat]'j.isLt

/-- R33, R101: the STAT image. -/
def State.statImage (s : State) : Word :=
  0#8 ++ s.errlog ++ 0#2 ++ s.phase ++ s.keyv ++ s.blen ++ s.hst.code

end Sys2Proof.Machine
end

