-- ==== Sys2Proof/Machine/Ops.lean ====
section
/-! DEFINITION. The operations every command shares: ending a command with a response (R10, R102),
raising an error (spec/60_exceptions.md R240 to R244), the hasher's `push`
(spec/41_sha1_hasher.md R130), reset (spec/70_reset_and_hazards.md R270), and taking the next
input. -/

namespace Sys2Proof.Machine

/-- R102: the state after a command that ends with status `st` and result `r`: the error log updated
by R243 and one response emitted. -/
def State.complete (s : State) (st : Status) (r : Word) : State :=
  { s with errlog := logStatus s.errlog st, responses := s.responses ++ [⟨st, r⟩] }

/-- R10: `respond(st, r)`. -/
def respond (s : State) (st : Status) (r : Word) : Host.Outcome State Fault Refusal :=
  .next (s.complete st r)

/-- R10: `raise E_X`, the block's one exception mechanism (R240): status `st`, result 0, no state
change other than the error log. -/
def raise (s : State) (st : Status) : Host.Outcome State Fault Refusal := respond s st 0

/-- R130: `push(b, count)`. `MBYTES` is 61 bits wide and wraps only in states no run reaches (log
entry 9). -/
def State.push (b : Byte) (count : Bool) (s : State) : State :=
  let buf := s.buf.set s.blen.toNat b s.blen.isLt
  { s with
    buf := buf
    mbytes := if count then s.mbytes + 1 else s.mbytes
    h := if s.blen = 63 then compress s.h buf.toList else s.h
    blen := if s.blen = 63 then 0 else s.blen + 1 }

/-- R136: a sequence of pushes. -/
def State.pushAll (bytes : List Byte) (count : Bool) (s : State) : State :=
  bytes.foldl (fun s b => s.push b count) s

/-- R136: `while S.BLEN != 56: push(0x00, count = false)`, for at most `fuel` pushes. BLEN has 64
values and each push advances it by one, so 64 are enough from every state (log entry 5). -/
def State.padTo56 : Nat → State → State
  | 0, s => s
  | fuel + 1, s => if s.blen = 56 then s else State.padTo56 fuel (s.push 0 false)

/-- R136: `L = 8 * S.MBYTES`, 64 bits; it cannot overflow (R131). -/
def State.bitLength (s : State) : BitVec 64 := 8#64 * s.mbytes.setWidth 64

/-- R136: the hasher's state once the GUID, the padding and the length have been pushed. -/
def State.absorbTail (s : State) : State :=
  (((s.pushAll guid true).push 0x80 false).padTo56 64).pushAll
    (lengthBytes (s.pushAll guid true).bitLength) false

/-- R136: the state HASH_FINAL leaves: the tail pushed, HST DONE. -/
def State.finalized (s : State) : State := { s.absorbTail with hst := .done }

/-- R270: the reset input sets every element of R20 to its reset value; the ports keep what they
hold (log entry 3). -/
def State.resetBlock (s : State) : State :=
  { State.reset with inputs := s.inputs, responses := s.responses }

/-- The next input and the state without it; `none` when nothing has been handed over. -/
def State.takeInput (s : State) : Option (Input × State) :=
  match s.inputs with
  | [] => none
  | x :: rest => some (x, { s with inputs := rest })

/-- `cmd` placed where the block accepts its next input. -/
def State.placeCommand (s : State) (cmd : Word) : State :=
  { s with inputs := .command cmd :: s.inputs }

end Sys2Proof.Machine
end

