-- ==== Sys2Proof/Machine/Control.lean ====
section
/-! DEFINITION. The core commands (spec/40_core_control.md R100, R101). -/

namespace Sys2Proof.Machine

/-- R100, NOP. -/
def execNop (s : State) : Host.Outcome State Fault Refusal := respond s .ok 0

/-- R101, STAT: the image shows ERRLOG as it stands before the command completes (R33). -/
def execStat (s : State) : Host.Outcome State Fault Refusal := respond s .ok s.statImage

end Sys2Proof.Machine
end

