-- ==== Sys2Proof/Machine/FrameCodec.lean ====
section
/-! DEFINITION. The frame header codec and its commands (spec/42_frame_codec.md R160 to R168). -/

namespace Sys2Proof.Machine

/-- R162: the closed set of frame kinds. -/
inductive FrameKind where
  | text
  | close
  | ping
  | pong
  deriving DecidableEq, Repr

/-- R160: `OPN = HB0[3:0]`. -/
def headerOpn (hb0 : Byte) : BitVec 4 := hb0.extractLsb' 0 4

/-- R160: `RSV = HB0[6:4]`, reported and never judged (R161). -/
def headerRsv (hb0 : Byte) : BitVec 3 := hb0.extractLsb' 4 3

/-- R163: `FINB = HB0[7]`. -/
def headerFinb (hb0 : Byte) : BitVec 1 := hb0.extractLsb' 7 1

/-- R163: `FINAL = not FINB`, the source's inverted polarity. -/
def headerFinal (hb0 : Byte) : BitVec 1 := ~~~headerFinb hb0

/-- R164: `MASK = HB1[7]`. -/
def headerMask (hb1 : Byte) : BitVec 1 := hb1.extractLsb' 7 1

/-- R164: `PLEN = HB1[6:0]`, a literal length. -/
def headerPlen (hb1 : Byte) : BitVec 7 := hb1.extractLsb' 0 7

/-- R164: `FOLLOW = 4 * MASK + PLEN`, the bytes that follow the header on the wire. -/
def headerFollow (hb1 : Byte) : BitVec 8 :=
  4#8 * (headerMask hb1).setWidth 8 + (headerPlen hb1).setWidth 8

/-- R162: the kind an opcode names; `none` for every other 4-bit value. -/
def frameKind (opn : BitVec 4) : Option FrameKind :=
  if opn = 1 then some .text
  else if opn = 8 then some .close
  else if opn = 9 then some .ping
  else if opn = 10 then some .pong
  else none

/-- R162: OPK, the kind's 3-bit code; 0 for an invalid opcode. -/
def kindCode : Option FrameKind → BitVec 3
  | none => 0
  | some .text => 1
  | some .close => 2
  | some .ping => 3
  | some .pong => 4

/-- R162: OPV. -/
def kindValid (k : Option FrameKind) : BitVec 1 := BitVec.ofBool k.isSome

/-- R165: the FHC_DEC result word. -/
def decodeImage (hb0 hb1 : Byte) : Word :=
  0#3 ++ headerFollow hb1 ++ kindCode (frameKind (headerOpn hb0)) ++
    kindValid (frameKind (headerOpn hb0)) ++ headerPlen hb1 ++ headerMask hb1 ++
    headerFinal hb0 ++ headerFinb hb0 ++ headerRsv hb0 ++ headerOpn hb0

/-- R166, FHC_DEC: the one error response that carries a result (R244). -/
def execFhcDec (hb0 hb1 : Byte) (s : State) : Host.Outcome State Fault Refusal :=
  if (frameKind (headerOpn hb0)).isNone then respond s .unknownOpcode (decodeImage hb0 hb1)
  else respond s .ok (decodeImage hb0 hb1)

/-- R167, FHC_ENC_TEXT: `HB0 = 0x81`, `HB1 = {0, LEN[6:0]}`. -/
def execFhcEncText (len : BitVec 16) (s : State) : Host.Outcome State Fault Refusal :=
  if !textLengthOk len then raise s .length
  else respond s .ok (pack2 0x81 (0#1 ++ len.extractLsb' 0 7))

/-- R168, FHC_ENC_CLOSE: `HB0 = 0x88`, `HB1 = 0x00`. -/
def execFhcEncClose (s : State) : Host.Outcome State Fault Refusal := respond s .ok (pack2 0x88 0x00)

end Sys2Proof.Machine
end

