-- ==== Sys2Proof/Machine/Hasher.lean ====
section
/-! DEFINITION. The SHA commands (spec/41_sha1_hasher.md R132 to R136, R139, R140). -/

namespace Sys2Proof.Machine

/-- R132: HASH_ABSORB overflows when `S.MBYTES + 1 + 36 > MBYTES_MAX`. -/
def State.atLengthLimit (s : State) : Bool := s.mbytes.toNat + 1 + 36 > Config.mbytesMax

/-- R134, HASH_INIT. `S.BUF` keeps its contents. -/
def execHashInit (s : State) : Host.Outcome State Fault Refusal :=
  respond { s with h := sha1Init, blen := 0, mbytes := 0, hst := .absorb } .ok 0

/-- R135, HASH_ABSORB. -/
def execHashAbsorb (data : Byte) (s : State) : Host.Outcome State Fault Refusal :=
  if s.hst ≠ .absorb then raise s .hashState
  else if s.atLengthLimit then raise s .hashOverflow
  else respond (s.push data true) .ok 0

/-- R136, HASH_FINAL. -/
def execHashFinal (s : State) : Host.Outcome State Fault Refusal :=
  if s.hst ≠ .absorb then raise s .hashState
  else respond s.finalized .ok 0

/-- R139, HASH_RDDIG: the range check comes before the state check. -/
def execHashRddig (idx : BitVec 3) (s : State) : Host.Outcome State Fault Refusal :=
  if !digestIndexOk idx then raise s .range
  else if s.hst ≠ .done then raise s .hashState
  else respond s .ok (s.h.word idx)

/-- R140, HASH_RDACC: the range check comes before the state check. -/
def execHashRdacc (idx : BitVec 3) (s : State) : Host.Outcome State Fault Refusal :=
  if !acceptIndexOk idx then raise s .range
  else if s.hst ≠ .done then raise s .hashState
  else respond s .ok (acceptGroup (acceptChars s.h) idx)

end Sys2Proof.Machine
end

