-- ==== Sys2Proof/Machine/Masker.lean ====
section
/-! DEFINITION. The XM commands (spec/43_masker.md R193 to R195). -/

namespace Sys2Proof.Machine

/-- R193, XM_KEY. -/
def execXmKey (kidx : BitVec 2) (data : Byte) (s : State) : Host.Outcome State Fault Refusal :=
  respond
    { s with
      key := s.key.set kidx.toNat data kidx.isLt
      keyv := s.keyv ||| (1#4 <<< kidx.toNat)
      phase := 0 }
    .ok 0

/-- R194, XM_XOR: the 2-bit phase wraps from 3 to 0. -/
def execXmXor (data : Byte) (s : State) : Host.Outcome State Fault Refusal :=
  if s.keyv ≠ 0b1111#4 then raise s .noKey
  else respond { s with phase := s.phase + 1 } .ok (zext32 (data ^^^ s.keyByte s.phase))

/-- R195, XM_REWIND. -/
def execXmRewind (s : State) : Host.Outcome State Fault Refusal := respond { s with phase := 0 } .ok 0

end Sys2Proof.Machine
end

