-- ==== Sys2Proof/Machine/Dispatch.lean ====
section
/-! DEFINITION. One arm per command, each one call of its meaning (spec/40_core_control.md R102). -/

namespace Sys2Proof.Machine

def exec (i : Instr) (s : State) : Host.Outcome State Fault Refusal :=
  match i with
  | .nop => Sys2Proof.Machine.execNop s
  | .stat => Sys2Proof.Machine.execStat s
  | .hashInit => Sys2Proof.Machine.execHashInit s
  | .hashAbsorb data => Sys2Proof.Machine.execHashAbsorb data s
  | .hashFinal => Sys2Proof.Machine.execHashFinal s
  | .hashRddig idx => Sys2Proof.Machine.execHashRddig idx s
  | .hashRdacc idx => Sys2Proof.Machine.execHashRdacc idx s
  | .fhcDec hb0 hb1 => Sys2Proof.Machine.execFhcDec hb0 hb1 s
  | .fhcEncText len => Sys2Proof.Machine.execFhcEncText len s
  | .fhcEncClose => Sys2Proof.Machine.execFhcEncClose s
  | .xmKey kidx data => Sys2Proof.Machine.execXmKey kidx data s
  | .xmXor data => Sys2Proof.Machine.execXmXor data s
  | .xmRewind => Sys2Proof.Machine.execXmRewind s

end Sys2Proof.Machine
end

