-- ==== Sys2Proof/Machine/Cycle.lean ====
section
/-! DEFINITION. The execution step of spec/40_core_control.md R102 over the block's input queue. -/

namespace Sys2Proof.Machine

/-- R102: one command word, decoded and executed; an illegal word raises E_ILLEGAL. -/
def runCommand (cmd : Word) (s : State) : Host.Outcome State Fault Refusal :=
  match decode cmd with
  | .ok i => exec i s
  | .error _ => raise s .illegal

/-- The block takes the oldest input: a command is executed (R102), the reset input resets the block
(R270). With no input the block holds its state (spec/60_exceptions.md R253). -/
def cycle (s : State) : Host.Outcome State Fault Refusal :=
  match s.takeInput with
  | none => .next s
  | some (.command cmd, s') => runCommand cmd s'
  | some (.reset, s') => .next s'.resetBlock

end Sys2Proof.Machine
end

