-- ==== Sys2Proof/Machine/Step.lean ====
section
/-! DEFINITION. The machine's step and the placing of its next command. -/

namespace Sys2Proof.Machine

/-- One step of WS-CORE (spec/40_core_control.md R102). -/
def step (s : State) : Host.Outcome State Fault Refusal := cycle s

/-- `s` with the opcode table's word `w` handed over as the block's next command (log entry 6); a
number of bits no command has changes nothing (log entry 11). -/
def State.withFetchWord (s : State) (nbits w : Nat) : State :=
  match tableWord nbits w with
  | none => s
  | some cmd => s.placeCommand cmd

end Sys2Proof.Machine
end

