-- ==== Sys2Proof/Machine/Pseudo.lean ====
section
/-! DEFINITION. The pseudo-instructions of spec/30_encoding.md R80, and command sequences as block
inputs. -/

namespace Sys2Proof.Machine

/-- The UTF-8 bytes of one character (R80; PRESUMED, the standard encoding; log entry 24). -/
def utf8Char (c : Char) : List Byte :=
  let n := c.toNat
  if n < 0x80 then [BitVec.ofNat 8 n]
  else if n < 0x800 then [BitVec.ofNat 8 (0xC0 + n / 64), BitVec.ofNat 8 (0x80 + n % 64)]
  else if n < 0x10000 then
    [BitVec.ofNat 8 (0xE0 + n / 4096), BitVec.ofNat 8 (0x80 + n / 64 % 64),
      BitVec.ofNat 8 (0x80 + n % 64)]
  else
    [BitVec.ofNat 8 (0xF0 + n / 262144), BitVec.ofNat 8 (0x80 + n / 4096 % 64),
      BitVec.ofNat 8 (0x80 + n / 64 % 64), BitVec.ofNat 8 (0x80 + n % 64)]

/-- R80: the UTF-8 bytes of a character sequence, in order. -/
def utf8Bytes (cs : List Char) : List Byte := cs.flatMap utf8Char

/-- R80: `HASH_KEY`, for a key given as bytes. -/
def hashKey (k : List Byte) : List Instr := k.map (fun b => .hashAbsorb b)

/-- R80: `HASH_ACCEPT`, for a key given as bytes. -/
def hashAccept (k : List Byte) : List Instr := .hashInit :: (hashKey k ++ [.hashFinal])

/-- R80: `HASH_RDACC_ALL`. -/
def hashRdaccAll : List Instr :=
  [.hashRdacc 0, .hashRdacc 1, .hashRdacc 2, .hashRdacc 3, .hashRdacc 4, .hashRdacc 5,
    .hashRdacc 6]

/-- R80: `HASH_RDDIG_ALL`. -/
def hashRddigAll : List Instr :=
  [.hashRddig 0, .hashRddig 1, .hashRddig 2, .hashRddig 3, .hashRddig 4]

/-- R80: `XM_KEY4 k0, k1, k2, k3`. -/
def xmKey4 (k0 k1 k2 k3 : Byte) : List Instr :=
  [.xmKey 0 k0, .xmKey 1 k1, .xmKey 2 k2, .xmKey 3 k3]

/-- R80: `XM_BYTES b0, ..., bn`. -/
def xmBytes (bs : List Byte) : List Instr := bs.map (fun b => .xmXor b)

/-- A command sequence as the host hands it to the block, in issue order
(spec/20_memory.md R62). -/
def asInputs (is : List Instr) : List Input := is.map (fun i => .command (encode i))

end Sys2Proof.Machine
end

