-- ==== Sys2Proof/Machine/Asm.lean ====
section
/-! DEFINITION. The assembler syntax of spec/30_encoding.md R79, with R80's pseudo-instructions: one
line of text to the commands it stands for. Points R79 leaves open are in log entry 21. -/

namespace Sys2Proof.Machine

/-- The tokens of a line. A number and a quoted character are both numbers (R79). -/
inductive Tok where
  | word (cs : List Char)
  | num (n : Nat)
  | str (cs : List Char)
  | comma
  deriving DecidableEq, Repr

/-- Where the scanner stands in a line; collected characters stand newest first. -/
inductive LexMode where
  | start
  | word (acc : List Char)
  | str (acc : List Char)
  | quote
  | quoted (c : Char)
  deriving DecidableEq, Repr

/-- A decimal digit's value. -/
def decDigit (c : Char) : Option Nat :=
  if '0'.toNat ≤ c.toNat ∧ c.toNat ≤ '9'.toNat then some (c.toNat - '0'.toNat) else none

/-- A hexadecimal digit's value, in either case. -/
def hexDigit (c : Char) : Option Nat :=
  if '0'.toNat ≤ c.toNat ∧ c.toNat ≤ '9'.toNat then some (c.toNat - '0'.toNat)
  else if 'A'.toNat ≤ c.toNat ∧ c.toNat ≤ 'F'.toNat then some (c.toNat - 'A'.toNat + 10)
  else if 'a'.toNat ≤ c.toNat ∧ c.toNat ≤ 'f'.toNat then some (c.toNat - 'a'.toNat + 10)
  else none

/-- The number the digits write in a base, the value so far being `acc`. -/
def readDigits (digit : Char → Option Nat) (base : Nat) : Nat → List Char → Option Nat
  | acc, [] => some acc
  | acc, c :: cs =>
    match digit c with
    | none => none
    | some d => readDigits digit base (acc * base + d) cs

/-- R79: a number is decimal, or hexadecimal with `0x`. -/
def readNumber : List Char → Option Nat
  | '0' :: 'x' :: c :: cs => readDigits hexDigit 16 0 (c :: cs)
  | cs => readDigits decDigit 10 0 cs

/-- A character of a mnemonic or a number. -/
def isWordChar (c : Char) : Bool :=
  (decDigit c).isSome || ('A'.toNat ≤ c.toNat && c.toNat ≤ 'Z'.toNat) ||
    ('a'.toNat ≤ c.toNat && c.toNat ≤ 'z'.toNat) || c == '_'

/-- The token a finished run of word characters is: a number if it begins with a digit, a mnemonic
otherwise. -/
def wordToken (cs : List Char) : Option Tok :=
  match cs with
  | [] => none
  | c :: _ => if (decDigit c).isSome then (readNumber cs).map .num else some (.word cs)

/-- One character between tokens; `k` scans the rest of the line. -/
def lexStart (c : Char) (k : LexMode → Option (List Tok)) : Option (List Tok) :=
  if c = ';' then some []
  else if c = ' ' ∨ c = '\t' then k .start
  else if c = ',' then (k .start).map (.comma :: ·)
  else if c = '"' then k (.str [])
  else if c = '\'' then k .quote
  else if isWordChar c then k (.word [c])
  else none

/-- The tokens of a line, a comment left out; `none` if it has no token form. A `;` inside a string or
between the quotes of a character is that character and starts no comment: R79 does not say, and this is
the model's choice (log entry 21). -/
def lexLine : LexMode → List Char → Option (List Tok)
  | .start, [] => some []
  | .word acc, [] => (wordToken acc.reverse).map ([·])
  | .str _, [] => none
  | .quote, [] => none
  | .quoted _, [] => none
  | .start, c :: cs => lexStart c (fun m => lexLine m cs)
  | .word acc, c :: cs =>
    if isWordChar c then lexLine (.word (c :: acc)) cs
    else
      match wordToken acc.reverse with
      | none => none
      | some t => (lexStart c (fun m => lexLine m cs)).map (t :: ·)
  | .str acc, c :: cs =>
    if c = '"' then (lexLine .start cs).map (.str acc.reverse :: ·) else lexLine (.str (c :: acc)) cs
  | .quote, c :: cs => lexLine (.quoted c) cs
  | .quoted q, c :: cs =>
    if c = '\'' ∧ q.toNat < 128 then (lexLine .start cs).map (.num q.toNat :: ·) else none

/-- The operands of a line: tokens separated by commas. -/
def splitOperands : List Tok → Option (List Tok)
  | [] => some []
  | [.comma] => none
  | [t] => some [t]
  | t :: .comma :: t' :: rest =>
    if t = .comma then none else (splitOperands (t' :: rest)).map (t :: ·)
  | _ :: _ :: _ => none

/-- An operand that fits its field's width. -/
def fitOperand (width n : Nat) : Option (BitVec width) :=
  if n < 2 ^ width then some (BitVec.ofNat width n) else none

/-- The byte operands of `XM_BYTES`. -/
def byteOperands : List Tok → Option (List Byte)
  | [] => some []
  | .num n :: ts =>
    match fitOperand 8 n, byteOperands ts with
    | some b, some bs => some (b :: bs)
    | _, _ => none
  | _ :: _ => none

/-- Commands of format N and the pseudo-instructions without operands. -/
def assembleNone (m : List Char) : Option (List Instr) :=
  if m = "NOP".toList then some [.nop]
  else if m = "STAT".toList then some [.stat]
  else if m = "HASH_INIT".toList then some [.hashInit]
  else if m = "HASH_FINAL".toList then some [.hashFinal]
  else if m = "FHC_ENC_CLOSE".toList then some [.fhcEncClose]
  else if m = "XM_REWIND".toList then some [.xmRewind]
  else if m = "HASH_RDACC_ALL".toList then some hashRdaccAll
  else if m = "HASH_RDDIG_ALL".toList then some hashRddigAll
  else none

/-- Commands of formats B, I and L. -/
def assembleOne (m : List Char) (a : Nat) : Option (List Instr) :=
  if m = "HASH_ABSORB".toList then (fitOperand 8 a).map (fun d => [.hashAbsorb d])
  else if m = "HASH_RDDIG".toList then (fitOperand 3 a).map (fun i => [.hashRddig i])
  else if m = "HASH_RDACC".toList then (fitOperand 3 a).map (fun i => [.hashRdacc i])
  else if m = "FHC_ENC_TEXT".toList then (fitOperand 16 a).map (fun l => [.fhcEncText l])
  else if m = "XM_XOR".toList then (fitOperand 8 a).map (fun d => [.xmXor d])
  else none

/-- Commands of formats H and K. -/
def assembleTwo (m : List Char) (a b : Nat) : Option (List Instr) :=
  if m = "FHC_DEC".toList then
    match fitOperand 8 a, fitOperand 8 b with
    | some h0, some h1 => some [.fhcDec h0 h1]
    | _, _ => none
  else if m = "XM_KEY".toList then
    match fitOperand 2 a, fitOperand 8 b with
    | some i, some d => some [.xmKey i d]
    | _, _ => none
  else none

/-- The pseudo-instructions on a string. -/
def assembleStr (m : List Char) (cs : List Char) : Option (List Instr) :=
  if m = "HASH_KEY".toList then some (hashKey (utf8Bytes cs))
  else if m = "HASH_ACCEPT".toList then some (hashAccept (utf8Bytes cs))
  else none

/-- The pseudo-instructions on a list of bytes. -/
def assembleBytes (m : List Char) (bs : List Byte) : Option (List Instr) :=
  if m = "XM_BYTES".toList then some (xmBytes bs)
  else if m = "XM_KEY4".toList then
    match bs with
    | [k0, k1, k2, k3] => some (xmKey4 k0 k1 k2 k3)
    | _ => none
  else none

/-- The commands a mnemonic and its operands stand for. -/
def assembleOperands (m : List Char) (ops : List Tok) : Option (List Instr) :=
  if m = "XM_BYTES".toList ∨ m = "XM_KEY4".toList then
    match byteOperands ops with
    | some (b :: bs) => assembleBytes m (b :: bs)
    | _ => none
  else
    match ops with
    | [] => assembleNone m
    | [.num a] => assembleOne m a
    | [.num a, .num b] => assembleTwo m a b
    | [.str cs] => assembleStr m cs
    | _ => none

/-- R79: the commands one line stands for; an empty or comment line stands for none
(log entry 21). -/
def assembleLine (line : String) : Option (List Instr) :=
  match lexLine .start line.toList with
  | none => none
  | some [] => some []
  | some (.word m :: rest) =>
    match splitOperands rest with
    | none => none
    | some ops => assembleOperands m ops
  | some _ => none

end Sys2Proof.Machine
end

