-- ==== Sys2Proof/Machine/Session.lean ====
section
/-! DEFINITION. The reference host of spec/45_host_protocol.md: one ConnectionSession driving one
block. It is the block's host interface, outside `State` (spec/00_scope.md R4): it reaches the block
only by handing it command words and reading the responses. Points the rules leave open are in log
entries 14 to 20 and 25 to 28. -/

namespace Sys2Proof.Machine

open Sys2Proof.Config (KeyMatch HostParams)

/-- The errors that end a session (R216, R217, R220). Of the other errors of
spec/60_exceptions.md R242, `HandshakeRejected` closes the session (R212), `MissingHandshakeKey` is no
error response (R215), and `BindFailure` is the listener's, out of scope (R5). -/
inductive FatalError where
  /-- `UnknownOpCode`: FHC_DEC answered E_UNKNOWN_OPCODE (R216). -/
  | unknownOpCode
  /-- `TruncatedRead`, `StreamError` and `TruncatedFrame`, one error (R220, C9). -/
  | truncatedRead
  /-- `InvalidUtf8Payload`: the payload is not UTF-8 (R217). -/
  | invalidUtf8Payload
  /-- A write failed: R220's "every decode or I/O failure during the Open-state loop". The spec gives
  this error no name of its own (log entry 28). -/
  | writeFailed
  deriving DecidableEq, Repr

/-- What an Open session reads next (R216 to R218). -/
inductive FrameStage where
  /-- The two header bytes. -/
  | header
  /-- The four key bytes of a masked Text frame. -/
  | textKey (plen : Nat)
  /-- The payload of a Text frame. -/
  | textPayload (plen : Nat) (masked : Bool)
  /-- The four key bytes of a masked Close frame, to be discarded. -/
  | closeKey
  deriving DecidableEq, Repr

/-- R221: the session's states, and the fatal ending of R224 (b). -/
inductive SessionPhase where
  | awaitingHandshake
  | opened (stage : FrameStage)
  | closed
  | ended (e : FatalError)
  deriving DecidableEq, Repr

/-- One session: the host's own data, its stream, and the block it drives (R223). -/
structure Session where
  phase : SessionPhase
  /-- The request's lines, once the stream has delivered them up to the blank line (log entry 14), as
  the bytes that came: a line need not be valid UTF-8 (log entry 25). -/
  request : Option (List (List Byte))
  /-- The bytes after the request that the stream has delivered and the host has not read. -/
  stream : List Byte
  /-- The stream has ended or failed: no more bytes come. -/
  streamEnded : Bool
  /-- The stream takes no more bytes: every write fails (log entry 28). -/
  writeFails : Bool
  /-- The bytes the host has written, in order. -/
  written : List Byte
  /-- The texts handed to the message policy, in order (R217). -/
  texts : List (List Byte)
  block : State
  deriving DecidableEq, Repr

/-- What one step of the session comes to. -/
inductive SessionOutcome where
  | next (x : Session)
  /-- The session waits on the stream (R222). -/
  | waits
  /-- The session's run has ended (R224). -/
  | over
  /-- The block did not answer; no block state makes this happen (R102). -/
  | blockStopped
  deriving DecidableEq, Repr

/-- R221: a session as it is created, over a block in any state. -/
def Session.start (block : State) : Session where
  phase := .awaitingHandshake
  request := none
  stream := []
  streamEnded := false
  writeFails := false
  written := []
  texts := []
  block := block

/-- The stream delivers the request's lines. -/
def Session.deliverRequest (x : Session) (lines : List (List Byte)) : Session :=
  { x with request := some lines }

/-- The stream delivers more bytes. -/
def Session.deliver (x : Session) (bytes : List Byte) : Session :=
  { x with stream := x.stream ++ bytes }

/-- The stream ends: the client sends no more, and still takes what the host writes. -/
def Session.endStream (x : Session) : Session := { x with streamEnded := true }

/-- The stream fails: no more bytes come, and none can be written. -/
def Session.failStream (x : Session) : Session := { x with streamEnded := true, writeFails := true }

/-- R270: the platform resets the block between two steps of the host (log entry 27). -/
def Session.resetBlock (x : Session) : Session := { x with block := x.block.resetBlock }

/-! ### Commands -/

/-- R210: the host issues one command and takes its response. The command goes ahead of whatever else
stands in the block's queue: a reset queued there is overtaken (log entry 27). -/
def issue (i : Instr) (b : State) : Option (Response × State) :=
  match step (b.placeCommand (encode i)) with
  | .next b' =>
    match b'.responses.getLast? with
    | some r => some (r, b')
    | none => none
  | .fault _ => none
  | .refused _ => none

/-- The host issues commands in order and takes their responses, in order. -/
def issueAll : List Instr → State → Option (List Response × State)
  | [], b => some ([], b)
  | i :: is, b =>
    match issue i b with
    | none => none
    | some (r, b') =>
      match issueAll is b' with
      | none => none
      | some (rs, b'') => some (r :: rs, b'')

/-! ### Endings and writes -/

/-- The session ends with a fatal error and writes nothing more (R220). -/
def Session.fail (x : Session) (e : FatalError) : SessionOutcome := .next { x with phase := .ended e }

/-- The host writes `bytes`: all of them, or, when the stream takes no more, none, and the session ends
with the fatal error (R220; log entry 28). -/
def Session.write (x : Session) (bytes : List Byte) : SessionOutcome :=
  if x.writeFails then x.fail .writeFailed else .next { x with written := x.written ++ bytes }

/-! ### Handshake -/

/-- R211: the only request line that is accepted. -/
def requestLine : List Byte := utf8Bytes "GET /ws HTTP/1.1".toList

/-- R213: the header name the key's line carries. -/
def keyHeader : List Byte := utf8Bytes "Sec-WebSocket-Key:".toList

/-- R212: the literal bytes of the rejection, with no terminator. -/
def notFoundBytes : List Byte := utf8Bytes "HTTP/1.1 404 Not Found".toList

/-- The byte pair 0x0D 0x0A (R214). -/
def crlf : List Byte := [0x0D, 0x0A]

/-- R214: the 101 response around the 28 accept bytes. -/
def switchingBytes (accept : List Byte) : List Byte :=
  utf8Bytes "HTTP/1.1 101 Switching Protocols".toList ++ crlf ++
    utf8Bytes "Upgrade: websocket".toList ++ crlf ++
    utf8Bytes "Connection: Upgrade".toList ++ crlf ++
    utf8Bytes "Sec-WebSocket-Accept: ".toList ++ accept ++ crlf ++ crlf

/-- What follows `p` in a line that begins with it (`KEY_MATCH = Prefix`). -/
def afterPrefix (p line : List Byte) : Option (List Byte) :=
  if p.isPrefixOf line then some (line.drop p.length) else none

/-- What follows the first occurrence of `p` in a line (`KEY_MATCH = Substring`; log entry 15). -/
def afterSubstring (p : List Byte) : List Byte → Option (List Byte)
  | [] => afterPrefix p []
  | b :: line =>
    match afterPrefix p (b :: line) with
    | some r => some r
    | none => afterSubstring p line

/-- A whitespace byte (log entry 15). -/
def isSpaceByte (b : Byte) : Bool := b = 0x20 || (0x09 ≤ b && b ≤ 0x0D)

/-- R213: the client key among the request's lines, trimmed of leading whitespace (log entry 15). Its
bytes are taken unchanged, valid UTF-8 or not (log entry 25). -/
def findKey (km : KeyMatch) (lines : List (List Byte)) : Option (List Byte) :=
  lines.findSome? (fun line =>
    (match km with
      | .exactPrefix => afterPrefix keyHeader line
      | .substring => afterSubstring keyHeader line).map (List.dropWhile isSpaceByte))

/-- R211, R212, R215: what the host does with the request. -/
def Session.handshake (p : HostParams) (x : Session) (lines : List (List Byte)) : SessionOutcome :=
  if lines.head? ≠ some requestLine then
    Session.write { x with phase := .closed } notFoundBytes
  else
    match findKey p.keyMatch lines with
    | none => .next { x with phase := .opened .header }
    | some k =>
      match issueAll (hashAccept k ++ hashRdaccAll) x.block with
      | none => .blockStopped
      | some (rs, b) =>
        let accept := (rs.drop (hashAccept k).length).flatMap (fun r => wordBytes r.result)
        Session.write { x with phase := .opened .header, block := b } (switchingBytes accept)

/-! ### Frames -/

/-- What a read of the stream comes to (R220, R222). -/
inductive ReadResult where
  | got (bytes : List Byte) (x : Session)
  | waits
  | short

/-- A blocking read of `n` bytes: all of them, or a wait, or, once the stream has ended or failed, the
fatal short read (R220, R222; log entry 16). Bytes delivered before the stream failed are still read
(log entry 26). -/
def Session.read (x : Session) (n : Nat) : ReadResult :=
  if n ≤ x.stream.length then .got (x.stream.take n) { x with stream := x.stream.drop n }
  else if x.streamEnded then .short
  else .waits

/-- The two header bytes of an encoder's result (R170). -/
def headerBytes (result : Word) : List Byte := [result.extractLsb' 8 8, result.extractLsb' 0 8]

/-- Whether `b` lies between two bytes. -/
def byteIn (lo hi b : Byte) : Bool := lo ≤ b && b ≤ hi

/-- UTF-8 validity (R217; PRESUMED, the Unicode standard's table; log entry 17): `need` continuation
bytes are still due, the next of them between `lo` and `hi`. -/
def utf8From : Nat → Byte → Byte → List Byte → Bool
  | 0, _, _, [] => true
  | _ + 1, _, _, [] => false
  | need + 1, lo, hi, b :: bs => byteIn lo hi b && utf8From need 0x80 0xBF bs
  | 0, _, _, b :: bs =>
    if byteIn 0x00 0x7F b then utf8From 0 0x80 0xBF bs
    else if byteIn 0xC2 0xDF b then utf8From 1 0x80 0xBF bs
    else if byteIn 0xE0 0xE0 b then utf8From 2 0xA0 0xBF bs
    else if byteIn 0xED 0xED b then utf8From 2 0x80 0x9F bs
    else if byteIn 0xE1 0xEF b then utf8From 2 0x80 0xBF bs
    else if byteIn 0xF0 0xF0 b then utf8From 3 0x90 0xBF bs
    else if byteIn 0xF1 0xF3 b then utf8From 3 0x80 0xBF bs
    else if byteIn 0xF4 0xF4 b then utf8From 3 0x80 0x8F bs
    else false

/-- R217: the payload decodes as UTF-8. -/
def validUtf8 (bytes : List Byte) : Bool := utf8From 0 0x80 0xBF bytes

/-- R218: the host issues FHC_ENC_CLOSE, writes its two bytes and closes. -/
def Session.sendClose (x : Session) : SessionOutcome :=
  match issue .fhcEncClose x.block with
  | none => .blockStopped
  | some (r, b) => Session.write { x with phase := .closed, block := b } (headerBytes r.result)

/-- R217: a text goes to the message policy, and the fixed reply is written as one Text frame. -/
def Session.replyTo (p : HostParams) (x : Session) (text : List Byte) : SessionOutcome :=
  if !validUtf8 text then x.fail .invalidUtf8Payload
  else
    match issue (.fhcEncText (BitVec.ofNat 16 p.reply.length)) x.block with
    | none => .blockStopped
    | some (r, b) =>
      Session.write { x with phase := .opened .header, texts := x.texts ++ [text], block := b }
        (headerBytes r.result ++ p.reply)

/-- R216: dispatch on OPK of a decoded header's image (R165). OPK 3 and 4, Ping and Pong, read and
send nothing (R219). -/
def Session.dispatch (x : Session) (image : Word) : SessionOutcome :=
  let masked := image.extractLsb' 9 1 = 1#1
  let plen := (image.extractLsb' 10 7).toNat
  let opk := image.extractLsb' 18 3
  if opk = kindCode (some .text) then
    .next { x with phase := .opened (if masked then .textKey plen else .textPayload plen false) }
  else if opk = kindCode (some .close) then
    if masked then .next { x with phase := .opened .closeKey } else x.sendClose
  else .next { x with phase := .opened .header }

/-- R216: the host decodes a header it has read. -/
def Session.onHeader (x : Session) (bytes : List Byte) : SessionOutcome :=
  match issue (.fhcDec (bytes.getD 0 0) (bytes.getD 1 0)) x.block with
  | none => .blockStopped
  | some (r, b) =>
    if r.status = .unknownOpcode then Session.fail { x with block := b } .unknownOpCode
    else Session.dispatch { x with block := b } r.result

/-- R217: the host loads a Text frame's key. -/
def Session.onTextKey (x : Session) (plen : Nat) (k : List Byte) : SessionOutcome :=
  match issueAll (xmKey4 (k.getD 0 0) (k.getD 1 0) (k.getD 2 0) (k.getD 3 0)) x.block with
  | none => .blockStopped
  | some (_, b) => .next { x with phase := .opened (.textPayload plen true), block := b }

/-- R217: the host unmasks a Text frame's payload, or uses it as it is (C3), and replies. -/
def Session.onTextPayload (p : HostParams) (x : Session) (masked : Bool) (payload : List Byte) :
    SessionOutcome :=
  if masked then
    match issueAll (xmBytes payload) x.block with
    | none => .blockStopped
    | some (rs, b) =>
      Session.replyTo p { x with block := b } (rs.map (fun r => r.result.extractLsb' 0 8))
  else x.replyTo p payload

/-- A step that reads `n` bytes and goes on with `k`. -/
def Session.reading (x : Session) (n : Nat) (k : Session → List Byte → SessionOutcome) :
    SessionOutcome :=
  match x.read n with
  | .got bytes x' => k x' bytes
  | .waits => .waits
  | .short => x.fail .truncatedRead

/-- One step of the session: the next thing the host does, with the block commands it issues. -/
def Session.step (p : HostParams) (x : Session) : SessionOutcome :=
  match x.phase with
  | .awaitingHandshake =>
    match x.request with
    | some lines => x.handshake p lines
    | none => if x.streamEnded then x.fail .truncatedRead else .waits
  | .opened .header => x.reading Config.headerLength Session.onHeader
  | .opened (.textKey plen) => x.reading Config.keyLength (fun x' k => x'.onTextKey plen k)
  | .opened (.textPayload plen masked) => x.reading plen (fun x' bs => x'.onTextPayload p masked bs)
  | .opened .closeKey => x.reading Config.keyLength (fun x' _ => x'.sendClose)
  | .closed => .over
  | .ended _ => .over

/-- Up to `k` steps of the session, as far as the stream lets it go. -/
def Session.run (p : HostParams) : Nat → Session → Session
  | 0, x => x
  | k + 1, x =>
    match x.step p with
    | .next x' => Session.run p k x'
    | .waits => x
    | .over => x
    | .blockStopped => x

end Sys2Proof.Machine
end

