-- ==== Sys2Proof/Safety.lean ====
section
/-! DEFINITION. What claims about WS-CORE are stated in: the state after an answer, the invariant of the
block's state, and the states no host can tell apart. -/

namespace Sys2Proof.Machine

/-- `s` once a command has answered (OK, `r`): one response more, nothing else. -/
def State.answered (s : State) (r : Word) : State :=
  { s with responses := s.responses ++ [⟨.ok, r⟩] }

/-- `s` once a command has answered (`st`, `r`) with an error `st`: bit `st` of ERRLOG set and one
response more, nothing else (spec/60_exceptions.md R243, R244). -/
def State.erred (s : State) (st : Status) (r : Word) : State :=
  { s with
    errlog := s.errlog ||| (1#8 <<< st.code.toNat)
    responses := s.responses ++ [⟨st, r⟩] }

/-- Every word with opcode `opc` and a 1 in one of the `reserved` bits of its operand field is
answered (E_ILLEGAL, 0), whatever the state (spec/30_encoding.md R74). -/
def RaisesIllegal (opc : Byte) (reserved : BitVec 24) : Prop :=
  ∀ (operands : BitVec 24) (s : State), operands &&& reserved ≠ 0 →
    runCommand (opc ++ operands : BitVec 32) s = .next (s.erred .illegal 0)

/-- `k` steps of the machine, stopping at the first that gives no next state: `Host.Core.run` of this
machine, written over its own types (`runFor_eq_core_run`). -/
def runFor : Nat → State → Host.Outcome State Fault Refusal
  | 0, s => .next s
  | k + 1, s =>
    match step s with
    | .next t => runFor k t
    | .fault f => .fault f
    | .refused r => .refused r

/-- What every state the block reaches from reset meets. -/
structure State.Inv (s : State) : Prop where
  /-- ERRLOG bit 0 is always 0 (spec/10_state.md R31). -/
  errlogBit0 : s.errlog.getLsbD 0 = false
  /-- A set ERRLOG bit has its error among the responses (spec/60_exceptions.md R243). -/
  errlogLogged : ∀ st : Status, s.errlog.getLsbD st.code.toNat = true →
    ∃ r ∈ s.responses, r.status = st
  /-- Before the first HASH_INIT the counters stand at their reset values (R36). -/
  idleCounts : s.hst = .idle → s.blen = 0 ∧ s.mbytes = 0
  /-- `S.BLEN = S.MBYTES mod 64` while a message is in progress (R25), within the length limit
  (spec/41_sha1_hasher.md R132). -/
  absorbCounts : s.hst = .absorb →
    s.blen.toNat = s.mbytes.toNat % 64 ∧ s.mbytes.toNat + 36 ≤ Config.mbytesMax
  /-- After HASH_FINAL `S.BLEN = 0` (R25) and the GUID is counted (R26). -/
  doneCounts : s.hst = .done → s.blen = 0 ∧ 36 ≤ s.mbytes.toNat

/-- Two states that differ at most in what spec/10_state.md R24, R36 and R37 call unobservable: H
before the first HASH_INIT, BUF from index BLEN up, and key bytes not yet written. -/
structure State.Agree (s t : State) : Prop where
  blen : s.blen = t.blen
  mbytes : s.mbytes = t.mbytes
  hst : s.hst = t.hst
  keyv : s.keyv = t.keyv
  phase : s.phase = t.phase
  errlog : s.errlog = t.errlog
  inputs : s.inputs = t.inputs
  responses : s.responses = t.responses
  chain : s.hst ≠ .idle → s.h = t.h
  buffer : ∀ n (hn : n < 64), n < s.blen.toNat → s.buf[n] = t.buf[n]
  keyBytes : ∀ j : BitVec 2, s.keyv.getLsbD j.toNat = true → s.keyByte j = t.keyByte j

end Sys2Proof.Machine
end

