-- ==== Sys2Proof/WellFormed.lean ====
section
/-! DEFINITION. Well-formedness: of a command word, by the match and mask words of
spec/30_encoding.md R72, and of a decoded command, by the field widths of R71. -/

namespace Sys2Proof

/-- One row of R72's table of match and mask words. -/
structure MatchRow where
  mnemonic : String
  matchWord : Word
  mask : Word
  deriving DecidableEq, Repr

/-- R72's match and mask words, in the table's order. -/
def matchRows : List MatchRow :=
  [ ⟨"NOP",           0x00000000, 0xFFFFFFFF⟩,
    ⟨"STAT",          0x01000000, 0xFFFFFFFF⟩,
    ⟨"HASH_INIT",     0x10000000, 0xFFFFFFFF⟩,
    ⟨"HASH_ABSORB",   0x11000000, 0xFFFFFF00⟩,
    ⟨"HASH_FINAL",    0x12000000, 0xFFFFFFFF⟩,
    ⟨"HASH_RDDIG",    0x13000000, 0xFFFFFFF8⟩,
    ⟨"HASH_RDACC",    0x14000000, 0xFFFFFFF8⟩,
    ⟨"FHC_DEC",       0x20000000, 0xFFFF0000⟩,
    ⟨"FHC_ENC_TEXT",  0x21000000, 0xFFFF0000⟩,
    ⟨"FHC_ENC_CLOSE", 0x22000000, 0xFFFFFFFF⟩,
    ⟨"XM_KEY",        0x30000000, 0xFFFCFF00⟩,
    ⟨"XM_XOR",        0x31000000, 0xFFFFFF00⟩,
    ⟨"XM_REWIND",     0x32000000, 0xFFFFFFFF⟩ ]

/-- R72: a word selects a row when `(cmd and mask) = match`. -/
def MatchRow.selects (r : MatchRow) (cmd : Word) : Bool := cmd &&& r.mask == r.matchWord

/-- R76: a word is well-formed when it is one command of R72 with its reserved bits zero; every
other word is illegal. -/
def wellFormedWord (cmd : Word) : Bool := matchRows.any (fun r => r.selects cmd)

/-- R71, R73: a decoded command is well-formed when each operand lies in its field's range. The
operand types have the fields' widths, so every command is well-formed (log entry 13). -/
def Instr.wellFormed : Instr → Bool
  | .nop => true
  | .stat => true
  | .hashInit => true
  | .hashAbsorb data => data.toNat < 256
  | .hashFinal => true
  | .hashRddig idx => idx.toNat < 8
  | .hashRdacc idx => idx.toNat < 8
  | .fhcDec hb0 hb1 => hb0.toNat < 256 && hb1.toNat < 256
  | .fhcEncText len => len.toNat < 65536
  | .fhcEncClose => true
  | .xmKey kidx data => kidx.toNat < 4 && data.toNat < 256
  | .xmXor data => data.toNat < 256
  | .xmRewind => true

end Sys2Proof
end

