-- ==== Sys2Proof/Certificates/Slice0/Obligations.lean ====
section
/-! DEFINITION. The statements for the provers. Each docstring names the rule of spec/ it comes from. -/

open Sys2Proof Sys2Proof.Machine Sys2Proof.Config

/-! ### Encoding and decoding (spec/30_encoding.md) -/

/-- R70 to R73: no bit of an encoding is dropped. Every command of all thirteen rows, with every operand
value, is decoded from its own word. -/
def Obligations.DecodeOfEncode : Prop := ∀ i : Instr, decode (encode i) = .ok i

/-- R76: a word that is a command is that command's only word. -/
def Obligations.EncodeOfDecode : Prop := ∀ (cmd : Word) (i : Instr), decode cmd = .ok i → encode i = cmd

/-- R76, R78: the decoder accepts exactly the words that R72's match and mask words select. -/
def Obligations.DecodeIffSelected : Prop :=
  ∀ cmd : Word, (∃ i, decode cmd = .ok i) ↔ ∃ row ∈ matchRows, cmd &&& row.mask = row.matchWord

/-- R72: "No two rows match the same word". -/
def Obligations.NoTwoRowsSelectOneWord : Prop :=
  ∀ (cmd : Word) (a b : MatchRow), a ∈ matchRows → b ∈ matchRows →
    cmd &&& a.mask = a.matchWord → cmd &&& b.mask = b.matchWord → a = b

/-- R71, R72: a few words written out from the formats and the opcode map, one for each unit at least,
decode to the commands they stand for. -/
def Obligations.SpecWordsDecode : Prop :=
  decode 0x00000000#32 = .ok .nop ∧ decode 0x01000000#32 = .ok .stat ∧
  decode 0x11000064#32 = .ok (.hashAbsorb 0x64) ∧ decode 0x14000006#32 = .ok (.hashRdacc 6) ∧
  decode 0x20008185#32 = .ok (.fhcDec 0x81 0x85) ∧ decode 0x2100FFFF#32 = .ok (.fhcEncText 0xFFFF) ∧
  decode 0x30020003#32 = .ok (.xmKey 2 0x03) ∧ decode 0x310000FF#32 = .ok (.xmXor 0xFF)

/-- R74, R75: a word with an unassigned opcode, or with an assigned opcode and a reserved bit set, is
answered (E_ILLEGAL, 0) and changes nothing but ERRLOG; no other check comes before. The reserved bits of
a row are those of its mask in [23:0] (R78). -/
def Obligations.IllegalWordsRaiseIllegal : Prop :=
  ∀ (cmd : Word) (s : State),
    ((∀ row ∈ matchRows, row.matchWord.extractLsb' 24 8 ≠ cmd.extractLsb' 24 8) ∨
      (∃ row ∈ matchRows, row.matchWord.extractLsb' 24 8 = cmd.extractLsb' 24 8 ∧
        cmd &&& row.mask &&& 0x00FFFFFF ≠ 0)) →
    runCommand cmd s = .next (s.erred .illegal 0)

/-! ### The step (spec/40_core_control.md R102, spec/20_memory.md R62) -/

/-- R102, R74, R75: with a command word next, the step is `runCommand` of it: `exec` of the command it
decodes to, or, when it is no command, the answer (E_ILLEGAL, 0) with its ERRLOG bit. That the word comes
from the head of an input queue, and is taken off it, is the model's choice (log entry 1): the spec names no
queue. -/
def Obligations.StepRunsDecodedCommand : Prop :=
  ∀ (s : State) (cmd : Word) (rest : List Input), s.inputs = .command cmd :: rest →
    step s = runCommand cmd { s with inputs := rest } ∧
    (∀ i, decode cmd = .ok i → step s = exec i { s with inputs := rest }) ∧
    ((∀ i, decode cmd ≠ .ok i) →
      step s = .next (State.erred { s with inputs := rest } .illegal 0))

/-- R32, R102, R243: every command word, legal or not, in every state, is answered by exactly one response,
and the error log gains the bit of its status, or stays as it is when that is OK. That the word is taken off
an input queue is the model's choice (log entry 1). -/
def Obligations.CommandAnsweredOnce : Prop :=
  ∀ (s : State) (cmd : Word) (rest : List Input), s.inputs = .command cmd :: rest →
    ∃ t r, step s = .next t ∧ t.inputs = rest ∧ t.responses = s.responses ++ [r] ∧
      t.errlog = if r.status = .ok then s.errlog else s.errlog ||| (1#8 <<< r.status.code.toNat)

/-- R62: commands take effect in issue order, one at a time, each answered before the next begins: after
`k` steps the first `k` have been answered, in order. That the others still stand in a queue is the model's
choice (log entry 1): the spec names no queue. -/
def Obligations.CommandsAnsweredInOrder : Prop :=
  ∀ (s : State) (cmds : List Word), s.inputs = cmds.map Input.command →
    ∃ rs : List Response, rs.length = cmds.length ∧
      ∀ k, k ≤ cmds.length → ∃ t : State, runFor k s = .next t ∧
        t.responses = s.responses ++ rs.take k ∧ t.inputs = (cmds.drop k).map Input.command

/-- R253: between commands the block holds its state. That a step with nothing handed over is how the
model shows it is the model's choice (log entry 1). -/
def Obligations.IdleBlockHoldsState : Prop := ∀ s : State, s.inputs = [] → step s = .next s

/-! ### Reset (spec/70_reset_and_hazards.md, spec/10_state.md R36, R37) -/

/-- R270, R36: the reset input, in every state, puts HST to IDLE, BLEN, MBYTES and PHASE to 0, KEYV to
0b0000 and ERRLOG to 0x00. That it is an item of the input queue, and that the responses already given
stay given, is the model's choice (log entry 3); nothing is said of H, BUF and KEY, which R36 leaves
unspecified. -/
def Obligations.ResetInputSetsResetValues : Prop :=
  ∀ (s : State) (rest : List Input), s.inputs = .reset :: rest →
    ∃ t, step s = .next t ∧ t.hst = .idle ∧ t.blen = 0 ∧ t.mbytes = 0 ∧ t.keyv = 0b0000 ∧
      t.phase = 0 ∧ t.errlog = 0x00 ∧ t.inputs = rest ∧ t.responses = s.responses

/-- The invariant holds after reset (R36). -/
def Obligations.ResetMeetsStateInv : Prop := State.reset.Inv

/-- R25, R26, R31, R132, R243: every step keeps the invariant, from every state that meets it: ERRLOG bit 0
is 0 and every other set bit has its error among the responses; BLEN is MBYTES mod 64 and MBYTES within
the limit in ABSORB; BLEN is 0 in DONE; the counters are 0 in IDLE. -/
def Obligations.StepKeepsStateInv : Prop := ∀ s t : State, s.Inv → step s = .next t → t.Inv

/-- R24, R36, R37: two states that differ only in H before the first HASH_INIT, in BUF from BLEN up, and in
key bytes not yet written, answer alike, and after the step differ only so again. -/
def Obligations.UnwrittenStateUnobservable : Prop :=
  ∀ s t s' : State, s.Agree t → step s = .next s' → ∃ t', step t = .next t' ∧ s'.Agree t'

/-- R36, R37: whatever H, BUF and KEY hold after reset, every input sequence gets the same responses, and
so does every prefix of it. The zeros of `State.reset` (log entry 4) are never seen. -/
def Obligations.ResetContentsNeverShow : Prop :=
  ∀ (k : Nat) (inputs : List Input) (h : Chain) (buf : Vector Byte 64) (key : Vector Byte 4),
    ∃ t u : State,
      runFor k ({ State.reset with inputs := inputs } : State) = .next t ∧
      runFor k ({ State.reset with inputs := inputs, h := h, buf := buf, key := key } : State) =
        .next u ∧
      t.responses = u.responses ∧ t.statImage = u.statImage

/-! ### Errors (spec/60_exceptions.md) -/

/-- R244: a command word answered with a status other than OK changes nothing but ERRLOG, and its result is
0, except that E_UNKNOWN_OPCODE, which only FHC_DEC answers, has the decode image. -/
def Obligations.ErrorChangesOnlyErrlog : Prop :=
  ∀ (cmd : Word) (s : State), ∃ t r, runCommand cmd s = .next t ∧ t.responses = s.responses ++ [r] ∧
    (r.status ≠ .ok → t = s.erred r.status r.result ∧
      (r.status ≠ .unknownOpcode → r.result = 0) ∧
      (r.status = .unknownOpcode → ∃ hb0 hb1,
        decode cmd = .ok (.fhcDec hb0 hb1) ∧ r.result = decodeImage hb0 hb1))

/-- R31, R243: no command clears a bit of ERRLOG, and no command sets bit 0. -/
def Obligations.ErrlogBitsStick : Prop :=
  ∀ (cmd : Word) (s t : State), runCommand cmd s = .next t →
    (∀ n, s.errlog.getLsbD n = true → t.errlog.getLsbD n = true) ∧
      t.errlog.getLsbD 0 = s.errlog.getLsbD 0

/-- R245: which status is reported when several conditions hold: a reserved bit wins over an index out of
range and over a length above 127; the range check wins over the state check; the state check wins over
the length limit; a reserved bit wins over an invalid frame opcode. -/
def Obligations.ErrorPriority : Prop :=
  (∀ (idx : BitVec 3) (s : State), idx.toNat > 4 → exec (.hashRddig idx) s = .next (s.erred .range 0)) ∧
  (∀ (idx : BitVec 3) (s : State), idx.toNat > 6 → exec (.hashRdacc idx) s = .next (s.erred .range 0)) ∧
  (∀ (d : Byte) (s : State), s.hst ≠ .absorb →
    exec (.hashAbsorb d) s = .next (s.erred .hashState 0)) ∧
  RaisesIllegal 0x13 0xFFFFF8 ∧ RaisesIllegal 0x14 0xFFFFF8 ∧ RaisesIllegal 0x21 0xFF0000 ∧
  RaisesIllegal 0x20 0xFF0000 ∧ RaisesIllegal 0x31 0xFFFF00

/-! ### Core commands (spec/40_core_control.md) -/

/-- R100: NOP answers (OK, 0) and changes nothing; its word is 0x00000000; any other word with its opcode
is illegal. -/
def Obligations.NopAnswersOnly : Prop :=
  (∀ s : State, exec .nop s = .next (s.answered 0)) ∧
  encode .nop = 0x00000000 ∧ RaisesIllegal 0x00 0xFFFFFF

/-- R33, R101: STAT changes nothing and answers (OK, image), each field of the image as R33 lays it out,
ERRLOG as it stands before; its word is 0x01000000, and any other word with its opcode is illegal. -/
def Obligations.StatAnswersImage : Prop :=
  (∀ s : State, ∃ image : Word, exec .stat s = .next (s.answered image) ∧
    image.extractLsb' 0 2 =
      (match s.hst with | .idle => 0#2 | .absorb => 1#2 | .done => 2#2) ∧
    image.extractLsb' 2 6 = s.blen ∧ image.extractLsb' 8 4 = s.keyv ∧
    image.extractLsb' 12 2 = s.phase ∧ image.extractLsb' 14 2 = 0 ∧
    image.extractLsb' 16 8 = s.errlog ∧ image.extractLsb' 24 8 = 0) ∧
  encode .stat = 0x01000000 ∧ RaisesIllegal 0x01 0xFFFFFF

/-! ### SHA-1 accept hasher (spec/41_sha1_hasher.md) -/

/-- R134, R122: HASH_INIT, in every state, loads the initial chaining values, clears BLEN and MBYTES, moves
HST to ABSORB and answers (OK, 0); BUF and everything else stays. -/
def Obligations.HashInitStartsMessage : Prop :=
  (∀ s : State, exec .hashInit s =
    .next (State.answered
      { s with
        h := ⟨0x67452301, 0xEFCDAB89, 0x98BADCFE, 0x10325476, 0xC3D2E1F0⟩
        blen := 0
        mbytes := 0
        hst := .absorb } 0)) ∧
  encode .hashInit = 0x10000000 ∧ RaisesIllegal 0x10 0xFFFFFF

/-- R135: in ABSORB below the length limit HASH_ABSORB puts its byte at BUF[BLEN], counts it, and
answers (OK, 0); at BLEN 63 it also compresses the block and BLEN becomes 0 (R130); nothing else changes.
Outside ABSORB it answers (E_HASH_STATE, 0), and in ABSORB at the length limit (E_HASH_OVERFLOW, 0) and
absorbs nothing. Its word is 0x110000dd, and a word with a bit of [23:8] set is illegal. -/
def Obligations.HashAbsorbTakesByte : Prop :=
  (∀ (d : Byte) (s : State), s.hst = .absorb → s.mbytes.toNat < 2 ^ 61 - 37 →
    ∃ t : State, exec (.hashAbsorb d) s = .next (t.answered 0) ∧
      t.buf = s.buf.set s.blen.toNat d s.blen.isLt ∧ t.mbytes.toNat = s.mbytes.toNat + 1 ∧
      (s.blen.toNat = 63 → t.blen = 0 ∧ t.h = compress s.h t.buf.toList) ∧
      (s.blen.toNat ≠ 63 → t.blen.toNat = s.blen.toNat + 1 ∧ t.h = s.h) ∧
      t = { s with h := t.h, buf := t.buf, blen := t.blen, mbytes := t.mbytes }) ∧
  (∀ (d : Byte) (s : State), s.hst ≠ .absorb →
    exec (.hashAbsorb d) s = .next (s.erred .hashState 0)) ∧
  (∀ (d : Byte) (s : State), s.hst = .absorb → s.mbytes.toNat ≥ 2 ^ 61 - 37 →
    exec (.hashAbsorb d) s = .next (s.erred .hashOverflow 0)) ∧
  (∀ d : Byte, (encode (.hashAbsorb d)).toNat = 0x11000000 + d.toNat) ∧
  RaisesIllegal 0x11 0xFFFF00

/-- R136: in ABSORB, HASH_FINAL answers (OK, 0), moves HST to DONE, leaves BLEN 0 and counts the GUID;
H becomes the compression of the pending bytes, the GUID, 0x80, the zeros and the 64-bit length, as one
block when BLEN was at most 19 and as two otherwise; nothing else changes but BUF, which R24 leaves
unobservable. Outside ABSORB it answers (E_HASH_STATE, 0). Its word is 0x12000000, and any other word with
its opcode is illegal. -/
def Obligations.HashFinalFinishesDigest : Prop :=
  (∀ s : State, s.hst = .absorb →
    ∃ t : State, exec .hashFinal s = .next (t.answered 0) ∧
      t.hst = .done ∧ t.blen = 0 ∧
      (s.mbytes.toNat + 36 ≤ 2 ^ 61 - 1 → t.mbytes.toNat = s.mbytes.toNat + 36) ∧
      (let tail := s.buf.toList.take s.blen.toNat ++ guid ++
          sha1Padding (s.blen.toNat + 36) (BitVec.ofNat 64 (8 * (s.mbytes.toNat + 36)))
        let blocks := if s.blen.toNat ≤ 19 then 1 else 2
        tail.length = 64 * blocks ∧ t.h = compressBlocks blocks s.h tail) ∧
      t = { s with
            h := t.h, buf := t.buf, blen := t.blen, mbytes := t.mbytes, hst := t.hst }) ∧
  (∀ s : State, s.hst ≠ .absorb → exec .hashFinal s = .next (s.erred .hashState 0)) ∧
  encode .hashFinal = 0x12000000 ∧ RaisesIllegal 0x12 0xFFFFFF

/-- R133: the hasher's state machine. Only HASH_INIT and HASH_FINAL move HST, as the table says; a status
other than OK comes with no change but ERRLOG's; reset sets IDLE, and no command returns HST to IDLE. -/
def Obligations.HasherStateMachine : Prop :=
  (∀ (i : Instr) (s : State), ∃ t r, exec i s = .next t ∧ t.responses = s.responses ++ [r] ∧
    (r.status ≠ .ok → t = s.erred r.status r.result) ∧
    (i = .hashInit → t.hst = .absorb ∧ r.status = .ok) ∧
    (i = .hashFinal → s.hst = .absorb → t.hst = .done ∧ r.status = .ok) ∧
    (i = .hashFinal → s.hst ≠ .absorb → t.hst = s.hst ∧ r.status = .hashState) ∧
    (∀ d, i = .hashAbsorb d → s.hst = .absorb → r.status = .ok ∨ r.status = .hashOverflow) ∧
    (∀ d, i = .hashAbsorb d → s.hst ≠ .absorb → r.status = .hashState) ∧
    (∀ n, i = .hashRddig n ∨ i = .hashRdacc n → s.hst = .done → r.status = .ok ∨ r.status = .range) ∧
    (∀ n, i = .hashRddig n ∨ i = .hashRdacc n → s.hst ≠ .done →
      r.status = .hashState ∨ r.status = .range) ∧
    (i ≠ .hashInit → i ≠ .hashFinal → t.hst = s.hst)) ∧
  (∀ s : State, s.resetBlock.hst = .idle)

/-- R139: in DONE, HASH_RDDIG of an index 0 to 4 changes nothing and answers the digest word, whose
bytes are the digest's, earliest first; above 4 it answers E_RANGE, and otherwise, outside DONE,
E_HASH_STATE. Its word is 0x1300000i, and a word with a bit of [23:3] set is illegal. -/
def Obligations.HashRddigReadsDigest : Prop :=
  (∀ (idx : BitVec 3) (s : State),
    if idx.toNat > 4 then exec (.hashRddig idx) s = .next (s.erred .range 0)
    else if s.hst ≠ .done then exec (.hashRddig idx) s = .next (s.erred .hashState 0)
    else ∃ w : Word, exec (.hashRddig idx) s = .next (s.answered w) ∧
      some w = [s.h.h0, s.h.h1, s.h.h2, s.h.h3, s.h.h4][idx.toNat]? ∧
      wordBytes w = ((digestBytes s.h).drop (4 * idx.toNat)).take 4) ∧
  (∀ idx : BitVec 3, (encode (.hashRddig idx)).toNat = 0x13000000 + idx.toNat) ∧
  RaisesIllegal 0x13 0xFFFFF8

/-- R140: in DONE, HASH_RDACC of an index 0 to 6 changes nothing and answers the four accept
characters of that group, earliest in the most significant byte, each a base64 character or `=`; index 7
answers E_RANGE, and otherwise, outside DONE, E_HASH_STATE. Its word is 0x1400000i, and a word with a bit
of [23:3] set is illegal. -/
def Obligations.HashRdaccReadsAccept : Prop :=
  (∀ (idx : BitVec 3) (s : State),
    if idx.toNat > 6 then exec (.hashRdacc idx) s = .next (s.erred .range 0)
    else if s.hst ≠ .done then exec (.hashRdacc idx) s = .next (s.erred .hashState 0)
    else ∃ w : Word, exec (.hashRdacc idx) s = .next (s.answered w) ∧
      wordBytes w = ((base64 (digestBytes s.h)).drop (4 * idx.toNat)).take 4 ∧
      (∀ b ∈ wordBytes w, b = 0x3D ∨ ∃ v : BitVec 6, b = base64Char v) ∧
      (idx = 6 → w.extractLsb' 0 8 = 0x3D)) ∧
  (∀ idx : BitVec 3, (encode (.hashRdacc idx)).toNat = 0x14000000 + idx.toNat) ∧
  RaisesIllegal 0x14 0xFFFFF8

/-- R130: HASH_INIT and then the bytes `m`, each in a HASH_ABSORB, all answer (OK, 0); afterwards H is the
compression of the full 64-byte blocks of `m`, and BUF, BLEN and MBYTES hold the rest and the count. -/
def Obligations.AbsorbedMessageState : Prop :=
  ∀ (m : List Byte) (s : State), m.length ≤ 2 ^ 61 - 37 →
    s.inputs = asInputs (.hashInit :: hashKey m) →
    ∃ t : State, runFor (m.length + 1) s = .next t ∧
      t.responses = s.responses ++ List.replicate (m.length + 1) ⟨.ok, 0⟩ ∧
      t.hst = .absorb ∧ t.h = compressBlocks (m.length / 64) sha1Init m ∧
      t.blen.toNat = m.length % 64 ∧ t.mbytes.toNat = m.length ∧
      t.buf.toList.take t.blen.toNat = m.drop (64 * (m.length / 64)) ∧
      t.key = s.key ∧ t.keyv = s.keyv ∧ t.phase = s.phase ∧ t.errlog = s.errlog

/-- R123: the padded message is the message, 0x80, the least number of zero bytes that brings the length
to 56 mod 64, and the bit length in eight big-endian bytes; its length is a multiple of 64. -/
def Obligations.PaddedMessageShape : Prop :=
  ∀ m : List Byte, m.length ≤ 2 ^ 61 - 1 →
    ∃ (z : Nat) (l64 : List Byte), sha1Padded m = m ++ [0x80] ++ List.replicate z 0x00 ++ l64 ∧
      (m.length + 1 + z) % 64 = 56 ∧ (∀ y < z, (m.length + 1 + y) % 64 ≠ 56) ∧
      l64.length = 8 ∧ l64.foldl (fun n b => 256 * n + b.toNat) 0 = 8 * m.length ∧
      (sha1Padded m).length % 64 = 0

/-- R137, R138: the alphabet, value by value; the accept value of a chaining state, group by group from its
20 digest bytes: a group of three bytes gives the characters of its four 6-bit parts, highest first, and the
last two bytes, filled with zeros, three characters and the pad. It has 28 characters, the last is `=` and
no other is, and the index of the last but one is a multiple of 4. -/
def Obligations.AcceptValueShape : Prop :=
  (∀ v : BitVec 6,
    (v.toNat ≤ 25 → (base64Char v).toNat = 0x41 + v.toNat) ∧
    (26 ≤ v.toNat → v.toNat ≤ 51 → (base64Char v).toNat = 0x61 + (v.toNat - 26)) ∧
    (52 ≤ v.toNat → v.toNat ≤ 61 → (base64Char v).toNat = 0x30 + (v.toNat - 52)) ∧
    (v.toNat = 62 → base64Char v = 0x2B) ∧ (v.toNat = 63 → base64Char v = 0x2F)) ∧
  base64Pad = 0x3D ∧
  ∀ c : Chain,
    (digestBytes c).length = Config.digestLength ∧ (acceptChars c).length = Config.acceptLength ∧
    (let d : Nat → Nat := fun n => ((digestBytes c).getD n 0).toNat;
      (∀ g j, g < 6 → j < 4 → (acceptChars c)[4 * g + j]? = some (base64Char (BitVec.ofNat 6
        ((65536 * d (3 * g) + 256 * d (3 * g + 1) + d (3 * g + 2)) / 64 ^ (3 - j) % 64)))) ∧
      (∀ j, j < 3 → (acceptChars c)[24 + j]? = some (base64Char (BitVec.ofNat 6
        ((65536 * d 18 + 256 * d 19) / 64 ^ (3 - j) % 64))))) ∧
    (acceptChars c)[27]? = some 0x3D ∧
    (∃ v : BitVec 6, (acceptChars c)[26]? = some (base64Char v) ∧ v.toNat % 4 = 0) ∧
    (∀ n, n < 27 → ∃ v : BitVec 6, (acceptChars c)[n]? = some (base64Char v) ∧ base64Char v ≠ 0x3D)

/-- R141, R120: the accept-value law. From every state, HASH_INIT, the bytes of any key of at most
2^61 - 37 bytes, and HASH_FINAL all answer (OK, 0), and HASH_RDACC 0 to 6 then answer, with status OK, the
28 bytes of base64(SHA1(K ++ GUID)) in order. -/
def Obligations.AcceptValueLaw : Prop :=
  ∀ (k : List Byte) (s : State), k.length ≤ 2 ^ 61 - 37 →
    s.inputs = asInputs (hashAccept k ++ hashRdaccAll) →
    ∃ (t : State) (rs : List Response), runFor (k.length + 9) s = .next t ∧
      t.responses = s.responses ++ List.replicate (k.length + 2) ⟨.ok, 0⟩ ++ rs ∧
      rs.length = 7 ∧ (∀ r ∈ rs, r.status = .ok) ∧
      rs.flatMap (fun r => wordBytes r.result) = base64 (digestBytes (sha1 (k ++ guid)))

/-! ### Frame header codec (spec/42_frame_codec.md) -/

/-- R165, R166: FHC_DEC changes no state but ERRLOG and answers the image, each field as R165 lays it out,
with status OK when OPN is 1, 8, 9 or 10 and E_UNKNOWN_OPCODE otherwise. Its word is 0x2000aabb, and a
word with a bit of [23:16] set is illegal. -/
def Obligations.FhcDecAnswersFields : Prop :=
  (∀ (hb0 hb1 : Byte) (s : State), ∃ image : Word,
    exec (.fhcDec hb0 hb1) s =
      .next (if hb0.extractLsb' 0 4 ∈ [1#4, 8#4, 9#4, 10#4] then s.answered image
        else s.erred .unknownOpcode image) ∧
    image.extractLsb' 0 4 = hb0.extractLsb' 0 4 ∧ image.extractLsb' 4 3 = hb0.extractLsb' 4 3 ∧
    image.extractLsb' 7 1 = hb0.extractLsb' 7 1 ∧ image.extractLsb' 8 1 = ~~~(hb0.extractLsb' 7 1) ∧
    image.extractLsb' 9 1 = hb1.extractLsb' 7 1 ∧ image.extractLsb' 10 7 = hb1.extractLsb' 0 7 ∧
    image.extractLsb' 17 1 = (if hb0.extractLsb' 0 4 ∈ [1#4, 8#4, 9#4, 10#4] then 1#1 else 0#1) ∧
    image.extractLsb' 18 3 =
      (if hb0.extractLsb' 0 4 = 1#4 then 1#3
        else if hb0.extractLsb' 0 4 = 8#4 then 2#3
        else if hb0.extractLsb' 0 4 = 9#4 then 3#3
        else if hb0.extractLsb' 0 4 = 10#4 then 4#3
        else 0#3) ∧
    (image.extractLsb' 21 8).toNat =
      4 * (hb1.extractLsb' 7 1).toNat + (hb1.extractLsb' 0 7).toNat ∧
    image.extractLsb' 29 3 = 0) ∧
  (∀ hb0 hb1 : Byte, (encode (.fhcDec hb0 hb1)).toNat = 0x20000000 + 0x100 * hb0.toNat + hb1.toNat) ∧
  RaisesIllegal 0x20 0xFF0000

/-- R171: the decoder's bit-arithmetic law, over all 65536 header pairs. -/
def Obligations.FhcDecBitArithmetic : Prop :=
  ∀ (hb0 hb1 : Byte) (s : State), ∃ t r, exec (.fhcDec hb0 hb1) s = .next t ∧
    t.responses = s.responses ++ [r] ∧
    (r.result.getLsbD 8 = true ↔ hb0 &&& 0x80 = 0) ∧
    (r.result.getLsbD 9 = true ↔ hb1 &&& 0x80 ≠ 0) ∧
    (r.result.extractLsb' 10 7).toNat = (hb1 &&& 0x7F).toNat ∧
    (r.status = .ok ↔ (hb0 &&& 0x0F).toNat ∈ [1, 8, 9, 10])

/-- R167: FHC_ENC_TEXT of a length up to 127 answers (OK, {0x81, LEN}) and changes nothing; a longer one
answers (E_LENGTH, 0). -/
def Obligations.FhcEncTextEncodesHeader : Prop :=
  (∀ (len : BitVec 16) (s : State), len.toNat ≤ 127 → ∃ w : Word,
    exec (.fhcEncText len) s = .next (s.answered w) ∧ w.toNat = 0x8100 + len.toNat) ∧
  (∀ (len : BitVec 16) (s : State), len.toNat > 127 →
    exec (.fhcEncText len) s = .next (s.erred .length 0)) ∧
  (∀ len : BitVec 16, (encode (.fhcEncText len)).toNat = 0x21000000 + len.toNat) ∧
  RaisesIllegal 0x21 0xFF0000

/-- R168: FHC_ENC_CLOSE answers (OK, 0x00008800) and changes nothing; its word is 0x22000000, and any other
word with its opcode is illegal. -/
def Obligations.FhcEncCloseEncodesFrame : Prop :=
  (∀ s : State, exec .fhcEncClose s = .next (s.answered 0x00008800)) ∧
  encode .fhcEncClose = 0x22000000 ∧ RaisesIllegal 0x22 0xFFFFFF

/-- R169: FHC_DEC of the two bytes of either encoder's result reports FINAL = 0 and FINB = 1, with the
opcode, MASK and length the encoder wrote. -/
def Obligations.EncodedHeaderDecodesNotFinal : Prop :=
  (∀ (len : BitVec 16) (s : State), len.toNat ≤ 127 → ∃ (w image : Word),
    exec (.fhcEncText len) s = .next (s.answered w) ∧
    exec (.fhcDec (w.extractLsb' 8 8) (w.extractLsb' 0 8)) s = .next (s.answered image) ∧
    image.getLsbD 8 = false ∧ image.getLsbD 7 = true ∧ image.extractLsb' 18 3 = 1#3 ∧
    image.getLsbD 9 = false ∧ (image.extractLsb' 10 7).toNat = len.toNat) ∧
  (∀ s : State, ∃ (w image : Word),
    exec .fhcEncClose s = .next (s.answered w) ∧
    exec (.fhcDec (w.extractLsb' 8 8) (w.extractLsb' 0 8)) s = .next (s.answered image) ∧
    image.getLsbD 8 = false ∧ image.getLsbD 7 = true ∧ image.extractLsb' 18 3 = 2#3 ∧
    image.getLsbD 9 = false ∧ (image.extractLsb' 10 7).toNat = 0)

/-- R38: the FHC commands are functions of the command word alone: in any two states they answer alike,
and they write nothing but ERRLOG, on an error. -/
def Obligations.CodecIsStateless : Prop :=
  ∀ (i : Instr) (s t : State), i.unit = .fhc → ∃ st r,
    exec i s = .next (if st = .ok then s.answered r else s.erred st r) ∧
    exec i t = .next (if st = .ok then t.answered r else t.erred st r)

/-! ### XOR payload masker (spec/43_masker.md) -/

/-- R193: XM_KEY, in every state, writes its byte into KEY[KIDX], sets KEYV[KIDX], clears PHASE and answers
(OK, 0); the other key bytes, the other KEYV bits and everything else stay. -/
def Obligations.XmKeyLoadsByte : Prop :=
  (∀ (j : BitVec 2) (d : Byte) (s : State), ∃ t : State,
    exec (.xmKey j d) s = .next (t.answered 0) ∧
    t.keyByte j = d ∧ (∀ n, n ≠ j → t.keyByte n = s.keyByte n) ∧
    t.keyv.getLsbD j.toNat = true ∧
    (∀ n : BitVec 2, n ≠ j → t.keyv.getLsbD n.toNat = s.keyv.getLsbD n.toNat) ∧
    t.phase = 0 ∧ t = { s with key := t.key, keyv := t.keyv, phase := t.phase }) ∧
  (∀ (j : BitVec 2) (d : Byte),
    (encode (.xmKey j d)).toNat = 0x30000000 + 0x10000 * j.toNat + d.toNat) ∧
  RaisesIllegal 0x30 0xFCFF00

/-- R194: with all four key bytes written, XM_XOR answers its byte XORed with KEY[PHASE], in [7:0], and
advances PHASE modulo 4; otherwise it answers (E_NOKEY, 0) and PHASE stays. -/
def Obligations.XmXorMasksByte : Prop :=
  (∀ (d : Byte) (s : State), s.keyv = 0b1111#4 → ∃ t : State,
    exec (.xmXor d) s = .next (t.answered ((d ^^^ s.keyByte s.phase).setWidth 32)) ∧
    t.phase.toNat = (s.phase.toNat + 1) % 4 ∧ t = { s with phase := t.phase }) ∧
  (∀ (d : Byte) (s : State), s.keyv ≠ 0b1111#4 → exec (.xmXor d) s = .next (s.erred .noKey 0)) ∧
  (∀ d : Byte, (encode (.xmXor d)).toNat = 0x31000000 + d.toNat) ∧
  RaisesIllegal 0x31 0xFFFF00

/-- R195: XM_REWIND, in every state, clears PHASE and answers (OK, 0); key and KEYV stay. -/
def Obligations.XmRewindRestartsPhase : Prop :=
  (∀ s : State, exec .xmRewind s = .next (State.answered { s with phase := 0 } 0)) ∧
  encode .xmRewind = 0x32000000 ∧ RaisesIllegal 0x32 0xFFFFFF

/-- R29: no command clears a KEYV bit, and only XM_KEY sets one. -/
def Obligations.KeyvBitsStick : Prop :=
  ∀ (i : Instr) (s t : State), exec i s = .next t → ∀ n : BitVec 2,
    (s.keyv.getLsbD n.toNat = true → t.keyv.getLsbD n.toNat = true) ∧
    (s.keyv.getLsbD n.toNat = false → t.keyv.getLsbD n.toNat = true → ∃ d, i = .xmKey n d)

/-- R190: the masking law. From every state, the four key bytes loaded in any order and then XM_XOR of a
payload of any length answer (OK, 0) four times and then, byte by byte, the payload XORed with the key
byte at its index mod 4. -/
def Obligations.MaskingLaw : Prop :=
  ∀ (k : BitVec 2 → Byte) (order : List (BitVec 2)) (p : List Byte) (s : State),
    order.Perm [0, 1, 2, 3] →
    s.inputs = asInputs (order.map (fun j => .xmKey j (k j)) ++ xmBytes p) →
    ∃ t : State, runFor (4 + p.length) s = .next t ∧
      t.responses = s.responses ++ List.replicate 4 ⟨.ok, 0⟩ ++
        p.mapIdx (fun n b => ⟨.ok, (b ^^^ k (BitVec.ofNat 2 (n % 4))).setWidth 32⟩)

/-- R191: unmasking is an involution. A key load, XM_XOR of the bytes of `p`, XM_REWIND, and XM_XOR of the
results give `p` back. -/
def Obligations.MaskingInvolution : Prop :=
  ∀ (k : BitVec 2 → Byte) (p : List Byte) (s : State),
    s.inputs = asInputs (xmKey4 (k 0) (k 1) (k 2) (k 3) ++ xmBytes p) →
    ∃ (t : State) (rs : List Response), runFor (4 + p.length) s = .next t ∧
      t.responses = s.responses ++ List.replicate 4 ⟨.ok, 0⟩ ++ rs ∧ rs.length = p.length ∧
      ∃ u : State,
        runFor (1 + p.length)
          ({ t with
             inputs := asInputs (.xmRewind :: xmBytes (rs.map (fun r => r.result.extractLsb' 0 8))) } :
            State) = .next u ∧
        u.responses = t.responses ++ ⟨.ok, 0⟩ :: p.map (fun b => ⟨.ok, b.setWidth 32⟩)

/-! ### What commands leave alone (spec/20_memory.md R59, spec/70_reset_and_hazards.md R277) -/

/-- R59: NOP, STAT, HASH_RDDIG, HASH_RDACC, FHC_DEC, FHC_ENC_TEXT and FHC_ENC_CLOSE change no state but
ERRLOG, and that only on an error. -/
def Obligations.ReadOnlyCommandsFrame : Prop :=
  ∀ (i : Instr) (s : State),
    (i.unit = .core ∨ i.unit = .fhc ∨ ∃ n, i = .hashRddig n ∨ i = .hashRdacc n) →
    ∃ st r, exec i s = .next (if st = .ok then s.answered r else s.erred st r)

/-- R20, R277: the SHA commands leave KEY, KEYV and PHASE as they are, and each answers once. The input queue,
which they leave as it is too, is the model's choice (log entry 1): the spec names no queue. -/
def Obligations.HashCommandsLeaveMasker : Prop :=
  ∀ (i : Instr) (s : State), i.unit = .sha → ∃ t r, exec i s = .next t ∧
    t.key = s.key ∧ t.keyv = s.keyv ∧ t.phase = s.phase ∧ t.inputs = s.inputs ∧
    t.responses = s.responses ++ [r]

/-- R20, R277: the XM commands leave H, BUF, BLEN, MBYTES and HST as they are, and each answers once. The input
queue, which they leave as it is too, is the model's choice (log entry 1): the spec names no queue. -/
def Obligations.MaskCommandsLeaveHasher : Prop :=
  ∀ (i : Instr) (s : State), i.unit = .xm → ∃ t r, exec i s = .next t ∧
    t.h = s.h ∧ t.buf = s.buf ∧ t.blen = s.blen ∧ t.mbytes = s.mbytes ∧ t.hst = s.hst ∧
    t.inputs = s.inputs ∧ t.responses = s.responses ++ [r]

/-- R59: HASH_INIT, XM_REWIND and XM_KEY are idempotent in state: done twice they leave what they leave done
once, one response more apart. -/
def Obligations.RepeatedCommandsIdempotent : Prop :=
  ∀ (i : Instr) (s : State), (i = .hashInit ∨ i = .xmRewind ∨ ∃ j d, i = .xmKey j d) →
    ∃ t, exec i s = .next t ∧ exec i t = .next (t.answered 0)

/-- R277: commands of different units interleave freely: in either order they leave the same state and each
gets the same answer. -/
def Obligations.UnitsInterleaveFreely : Prop :=
  ∀ (i j : Instr) (s : State), i.unit ≠ j.unit → i.unit ≠ .core → j.unit ≠ .core →
    ∃ (si sj sij sji : State) (ri rj : Response),
      exec i s = .next si ∧ exec j si = .next sij ∧ exec j s = .next sj ∧ exec i sj = .next sji ∧
      sij.responses = s.responses ++ [ri, rj] ∧ sji.responses = s.responses ++ [rj, ri] ∧
      sij = { sji with responses := sij.responses }

/-! ### Host protocol (spec/45_host_protocol.md) -/

/-- R212: a request whose first line is not exactly `GET /ws HTTP/1.1` is answered with the literal 404
bytes; the session is Closed and the block untouched. That the request comes as a list of lines is the
model's choice (log entry 14), and so is what a failed write comes to (log entry 28). -/
def Obligations.WrongRequestLineRejected : Prop :=
  ∀ (p : HostParams) (x : Session) (line : List Byte) (lines : List (List Byte)),
    x.phase = .awaitingHandshake → x.request = some (line :: lines) →
    line ≠ utf8Bytes "GET /ws HTTP/1.1".toList →
    (x.writeFails = false → x.step p = .next
      { x with phase := .closed, written := x.written ++ utf8Bytes "HTTP/1.1 404 Not Found".toList }) ∧
    (x.writeFails = true → x.step p = .next { x with phase := .ended .writeFailed })

/-- R213: the key is what follows the name `Sec-WebSocket-Key:` in the first line that carries it, leading
spaces dropped; with no such line there is none. A line that begins with the name gives the same key for both
values of KEY_MATCH. A line that holds it only later is found with KEY_MATCH = Substring, and passed over with
KEY_MATCH = Prefix. Which bytes count as spaces, and that the first such line and in it the first place of the
name are taken, are the model's choices (log entry 15). -/
def Obligations.KeyFoundInHeaderLine : Prop :=
  let name := utf8Bytes "Sec-WebSocket-Key:".toList
  (∀ (km : KeyMatch) (before after : List (List Byte)) (spaces : Nat) (k : List Byte),
    (∀ line ∈ before, ¬ name <:+: line) → (∀ b, k.head? = some b → isSpaceByte b = false) →
    findKey km (before ++ (name ++ List.replicate spaces 0x20 ++ k) :: after) = some k ∧
      findKey km before = none) ∧
  (∀ (before after : List (List Byte)) (pre : List Byte) (spaces : Nat) (k : List Byte),
    (∀ line ∈ before, ¬ name <:+: line) → (∀ b, k.head? = some b → isSpaceByte b = false) →
    let line := pre ++ (name ++ List.replicate spaces 0x20 ++ k)
    pre ≠ [] → (∀ n < pre.length, ¬ name <+: line.drop n) →
    findKey .substring (before ++ line :: after) = some k ∧
      findKey .exactPrefix (before ++ line :: after) = findKey .exactPrefix after)

/-- R211, R214, R141: a request with the right request line and a key gets the 101 response, byte for byte,
its accept value the key's, and the session is Open; nothing more is read from the stream. The block's hasher
is left in DONE with the digest of the key and the GUID, and the masker and ERRLOG as they were. How the key is
found, how the request comes, and that its bytes are hashed unchanged are the model's choices (log entries 14,
15 and 25), and so is what a failed write comes to (log entry 28). -/
def Obligations.HandshakeAcceptsKey : Prop :=
  ∀ (p : HostParams) (x : Session) (lines : List (List Byte)) (k : List Byte),
    x.phase = .awaitingHandshake → x.request = some (utf8Bytes "GET /ws HTTP/1.1".toList :: lines) →
    findKey p.keyMatch (utf8Bytes "GET /ws HTTP/1.1".toList :: lines) = some k → k.length ≤ 2 ^ 61 - 37 →
    ∃ b : State,
      b.h = sha1 (k ++ guid) ∧ b.mbytes.toNat = k.length + 36 ∧
      b = { x.block with
            h := b.h, buf := b.buf, blen := 0, mbytes := b.mbytes, hst := .done
            responses := b.responses } ∧
      (x.writeFails = false → x.step p = .next
        { x with
          phase := .opened .header
          written := x.written ++
            (utf8Bytes ("HTTP/1.1 101 Switching Protocols\r\nUpgrade: websocket\r\n" ++
                "Connection: Upgrade\r\nSec-WebSocket-Accept: ").toList ++
              base64 (digestBytes (sha1 (k ++ guid))) ++ utf8Bytes "\r\n\r\n".toList)
          block := b }) ∧
      (x.writeFails = true → x.step p = .next { x with phase := .ended .writeFailed, block := b })

/-- R215: a request without a key gets no response; the session falls through to Open and the block is
untouched (log entries 14 and 15). -/
def Obligations.MissingKeyFallsThrough : Prop :=
  ∀ (p : HostParams) (x : Session) (lines : List (List Byte)),
    x.phase = .awaitingHandshake → x.request = some (utf8Bytes "GET /ws HTTP/1.1".toList :: lines) →
    findKey p.keyMatch (utf8Bytes "GET /ws HTTP/1.1".toList :: lines) = none →
    x.step p = .next { x with phase := .opened .header }

/-- R216, R220: a header with an unknown opcode ends the session, and nothing is written. -/
def Obligations.UnknownOpcodeEndsSession : Prop :=
  ∀ (p : HostParams) (x : Session) (hb0 hb1 : Byte) (rest : List Byte),
    x.phase = .opened .header → x.stream = hb0 :: hb1 :: rest →
    hb0.extractLsb' 0 4 ∉ [1#4, 8#4, 9#4, 10#4] →
    x.step p = .next
      { x with
        phase := .ended .unknownOpCode
        stream := rest
        block := x.block.erred .unknownOpcode (decodeImage hb0 hb1) }

/-- R218: a Close frame, masked with any key or unmasked, is answered with the bytes [0x88, 0x00], and the
session is Closed; no XM command is issued and no payload is read. When the write fails, the session ends
instead, with nothing written (R220; log entry 28). -/
def Obligations.CloseFrameAnswered : Prop :=
  ∀ (p : HostParams) (x : Session) (hb0 hb1 k0 k1 k2 k3 : Byte) (rest : List Byte),
    x.phase = .opened .header → hb0.extractLsb' 0 4 = 8#4 →
    (hb1.extractLsb' 7 1 = 0#1 → x.stream = hb0 :: hb1 :: rest → x.step p = .next
      { x with
        phase := if x.writeFails then .ended .writeFailed else .closed
        stream := rest
        written := if x.writeFails then x.written else x.written ++ [0x88, 0x00]
        block := (x.block.answered (decodeImage hb0 hb1)).answered 0x00008800 }) ∧
    (hb1.extractLsb' 7 1 = 1#1 → x.stream = hb0 :: hb1 :: k0 :: k1 :: k2 :: k3 :: rest →
      x.run p 2 =
      { x with
        phase := if x.writeFails then .ended .writeFailed else .closed
        stream := rest
        written := if x.writeFails then x.written else x.written ++ [0x88, 0x00]
        block := (x.block.answered (decodeImage hb0 hb1)).answered 0x00008800 })

/-- R219: a Ping or Pong header is ignored: nothing after it is read, nothing is sent, the session stays in
Open. -/
def Obligations.PingAndPongIgnored : Prop :=
  ∀ (p : HostParams) (x : Session) (hb0 hb1 : Byte) (rest : List Byte),
    x.phase = .opened .header → x.stream = hb0 :: hb1 :: rest →
    hb0.extractLsb' 0 4 ∈ [9#4, 10#4] →
    x.step p = .next
      { x with stream := rest, block := x.block.answered (decodeImage hb0 hb1) }

/-- R217, R190: a masked Text frame of a valid UTF-8 payload: the host loads the key, unmasks the payload,
hands the text on, and writes one Text frame with the fixed reply. A payload that is not UTF-8 once unmasked
ends the session with nothing written, and so does a failed write (R220; log entry 28). The block is left with
the frame's key, KEYV 0b1111 and PHASE at the payload's length mod 4, and all else in it as it was but for the
responses. What is valid UTF-8 is the model's presumption (log entry 17), and that the payload is read whole
before it is unmasked its choice (log entry 16). -/
def Obligations.MaskedTextFrameAnswered : Prop :=
  ∀ (p : HostParams) (x : Session) (hb0 : Byte) (k : BitVec 2 → Byte) (text rest : List Byte),
    x.phase = .opened .header → hb0.extractLsb' 0 4 = 1#4 → text.length ≤ 127 →
    x.stream = hb0 :: BitVec.ofNat 8 (0x80 + text.length) :: k 0 :: k 1 :: k 2 :: k 3 ::
      (text.mapIdx (fun n b => b ^^^ k (BitVec.ofNat 2 (n % 4))) ++ rest) →
    ∃ b : State, (∀ j, b.keyByte j = k j) ∧
      b = { x.block with
            key := b.key, keyv := 0b1111, phase := BitVec.ofNat 2 (text.length % 4)
            responses := b.responses } ∧
      (validUtf8 text = true → p.reply.length ≤ 127 → x.run p 3 =
        { x with
          phase := if x.writeFails then .ended .writeFailed else .opened .header
          stream := rest
          texts := x.texts ++ [text]
          written :=
            if x.writeFails then x.written
            else x.written ++ [0x81, BitVec.ofNat 8 p.reply.length] ++ p.reply
          block := b.answered (BitVec.ofNat 32 (0x8100 + p.reply.length)) }) ∧
      (validUtf8 text = false → x.run p 3 =
        { x with phase := .ended .invalidUtf8Payload, stream := rest, block := b })

/-- R220, R222: a session that must read more bytes than the stream holds waits while the stream may still
deliver, and ends, with nothing written, once it cannot. That a read takes all its bytes or none is the
model's choice (log entry 16). -/
def Obligations.ShortReadWaitsOrEnds : Prop :=
  ∀ (p : HostParams) (x : Session) (stage : FrameStage), x.phase = .opened stage →
    x.stream.length <
      (match stage with
        | .header => 2
        | .textKey _ => 4
        | .textPayload plen _ => plen
        | .closeKey => 4) →
    (x.streamEnded = false → x.step p = .waits) ∧
    (x.streamEnded = true → x.step p = .next { x with phase := .ended .truncatedRead })

/-- R216, R217, C3: an unmasked Text frame. From its header the host goes on to read PLEN payload bytes and
uses them as they are: valid UTF-8 is handed on and answered with one Text frame; anything else ends the
session with nothing written, and so does a failed write (R220; log entry 28). The block's masker is untouched.
What is valid UTF-8 is the model's presumption (log entry 17). -/
def Obligations.UnmaskedTextPayloadHandled : Prop :=
  (∀ (p : HostParams) (x : Session) (hb0 : Byte) (text rest : List Byte),
    x.phase = .opened .header → hb0.extractLsb' 0 4 = 1#4 → text.length ≤ 127 →
    x.stream = hb0 :: BitVec.ofNat 8 text.length :: (text ++ rest) →
    (validUtf8 text = true → p.reply.length ≤ 127 → x.run p 2 =
      { x with
        phase := if x.writeFails then .ended .writeFailed else .opened .header
        stream := rest
        texts := x.texts ++ [text]
        written :=
          if x.writeFails then x.written
          else x.written ++ [0x81, BitVec.ofNat 8 p.reply.length] ++ p.reply
        block := (x.block.answered (decodeImage hb0 (BitVec.ofNat 8 text.length))).answered
          (BitVec.ofNat 32 (0x8100 + p.reply.length)) }) ∧
    (validUtf8 text = false → x.run p 2 =
      { x with
        phase := .ended .invalidUtf8Payload
        stream := rest
        block := x.block.answered (decodeImage hb0 (BitVec.ofNat 8 text.length)) })) ∧
  (∀ (p : HostParams) (x : Session) (text rest : List Byte),
    x.phase = .opened (.textPayload text.length false) → x.stream = text ++ rest →
    (validUtf8 text = true → p.reply.length ≤ 127 → x.step p = .next
      { x with
        phase := if x.writeFails then .ended .writeFailed else .opened .header
        stream := rest
        texts := x.texts ++ [text]
        written :=
          if x.writeFails then x.written
          else x.written ++ [0x81, BitVec.ofNat 8 p.reply.length] ++ p.reply
        block := x.block.answered (BitVec.ofNat 32 (0x8100 + p.reply.length)) }) ∧
    (validUtf8 text = false →
      x.step p = .next { x with phase := .ended .invalidUtf8Payload, stream := rest }))

/-- R221, R224: a session that is Closed, or that a fatal error has ended, does nothing more, whatever the
stream holds. -/
def Obligations.EndedSessionDoesNothing : Prop :=
  ∀ (p : HostParams) (x : Session) (k : Nat), (x.phase = .closed ∨ ∃ e, x.phase = .ended e) →
    x.step p = .over ∧ x.run p k = x

/-- R220: once writes fail, no step writes a byte. Each step that would write on a stream that takes bytes, be
it the 101 or the 404 response, the answer to a Close frame or the reply to a Text frame, ends the session and
leaves all else as it would; a step that goes on without a write does the same. So the answer to a Close frame
whose key has been read, and the reply to a payload, end it. What error that is, that no byte of a failed write
goes out, and that the handshake's writes are treated alike, are the model's choices (log entry 28), and so is
that bytes delivered before a stream failed are still read (log entry 26). -/
def Obligations.FailedWriteEndsSession : Prop :=
  ∀ (p : HostParams) (x : Session), x.writeFails = true →
    (∀ y, x.step p = .next y → y.written = x.written ∧ y.writeFails = true) ∧
    (∀ y, Session.step p { x with writeFails := false } = .next y →
      if y.written = x.written then x.step p = .next { y with writeFails := true }
      else x.step p = .next
        { y with phase := .ended .writeFailed, written := x.written, writeFails := true }) ∧
    (x.phase = .opened .closeKey → 4 ≤ x.stream.length →
      ∃ y, x.step p = .next y ∧ y.phase = .ended .writeFailed) ∧
    (∀ (plen : Nat) (masked : Bool), x.phase = .opened (.textPayload plen masked) →
      plen ≤ x.stream.length → ∃ y, x.step p = .next y ∧
        (y.phase = .ended .writeFailed ∨ y.phase = .ended .invalidUtf8Payload))
end

