-- ==== Sys2Proof/Laws/State.lean ====
section
/-! SUPPORT. One lemma per field of the state and per shared update, each true by unfolding once, so
that no later proof unfolds a record update. -/

namespace Sys2Proof.Machine

/-! ### `complete` -/

@[simp] theorem State.complete_h (s : State) (st : Status) (r : Word) : (s.complete st r).h = s.h := rfl
@[simp] theorem State.complete_buf (s : State) (st : Status) (r : Word) :
    (s.complete st r).buf = s.buf := rfl
@[simp] theorem State.complete_blen (s : State) (st : Status) (r : Word) :
    (s.complete st r).blen = s.blen := rfl
@[simp] theorem State.complete_mbytes (s : State) (st : Status) (r : Word) :
    (s.complete st r).mbytes = s.mbytes := rfl
@[simp] theorem State.complete_hst (s : State) (st : Status) (r : Word) :
    (s.complete st r).hst = s.hst := rfl
@[simp] theorem State.complete_key (s : State) (st : Status) (r : Word) :
    (s.complete st r).key = s.key := rfl
@[simp] theorem State.complete_keyv (s : State) (st : Status) (r : Word) :
    (s.complete st r).keyv = s.keyv := rfl
@[simp] theorem State.complete_phase (s : State) (st : Status) (r : Word) :
    (s.complete st r).phase = s.phase := rfl
@[simp] theorem State.complete_errlog (s : State) (st : Status) (r : Word) :
    (s.complete st r).errlog = logStatus s.errlog st := rfl
@[simp] theorem State.complete_inputs (s : State) (st : Status) (r : Word) :
    (s.complete st r).inputs = s.inputs := rfl
@[simp] theorem State.complete_responses (s : State) (st : Status) (r : Word) :
    (s.complete st r).responses = s.responses ++ [⟨st, r⟩] := rfl

/-! ### `answered` and `erred`, the two shapes of `complete` -/

theorem State.complete_ok (s : State) (r : Word) : s.complete .ok r = s.answered r := rfl

theorem State.complete_error (s : State) {st : Status} (h : st ≠ .ok) (r : Word) :
    s.complete st r = s.erred st r := by
  simp [State.complete, State.erred, logStatus, h]

/-! ### `resetBlock` -/

@[simp] theorem State.resetBlock_blen (s : State) : s.resetBlock.blen = 0 := rfl
@[simp] theorem State.resetBlock_mbytes (s : State) : s.resetBlock.mbytes = 0 := rfl
@[simp] theorem State.resetBlock_hst (s : State) : s.resetBlock.hst = .idle := rfl
@[simp] theorem State.resetBlock_keyv (s : State) : s.resetBlock.keyv = 0 := rfl
@[simp] theorem State.resetBlock_phase (s : State) : s.resetBlock.phase = 0 := rfl
@[simp] theorem State.resetBlock_errlog (s : State) : s.resetBlock.errlog = 0 := rfl
@[simp] theorem State.resetBlock_inputs (s : State) : s.resetBlock.inputs = s.inputs := rfl
@[simp] theorem State.resetBlock_responses (s : State) :
    s.resetBlock.responses = s.responses := rfl

/-! ### `takeInput` and `placeCommand` -/

theorem State.takeInput_nil {s : State} (h : s.inputs = []) : s.takeInput = none := by
  simp [State.takeInput, h]

theorem State.takeInput_cons {s : State} {x : Input} {rest : List Input} (h : s.inputs = x :: rest) :
    s.takeInput = some (x, { s with inputs := rest }) := by
  simp [State.takeInput, h]

@[simp] theorem State.takeInput_placeCommand (s : State) (cmd : Word) :
    (s.placeCommand cmd).takeInput = some (.command cmd, s) := rfl

/-! ### `push` -/

@[simp] theorem State.push_hst (b : Byte) (c : Bool) (s : State) :
    (s.push b c).hst = s.hst := rfl
@[simp] theorem State.push_key (b : Byte) (c : Bool) (s : State) :
    (s.push b c).key = s.key := rfl
@[simp] theorem State.push_keyv (b : Byte) (c : Bool) (s : State) :
    (s.push b c).keyv = s.keyv := rfl
@[simp] theorem State.push_phase (b : Byte) (c : Bool) (s : State) :
    (s.push b c).phase = s.phase := rfl
@[simp] theorem State.push_errlog (b : Byte) (c : Bool) (s : State) :
    (s.push b c).errlog = s.errlog := rfl
@[simp] theorem State.push_inputs (b : Byte) (c : Bool) (s : State) :
    (s.push b c).inputs = s.inputs := rfl
@[simp] theorem State.push_responses (b : Byte) (c : Bool) (s : State) :
    (s.push b c).responses = s.responses := rfl
@[simp] theorem State.push_mbytes (b : Byte) (c : Bool) (s : State) :
    (s.push b c).mbytes = if c then s.mbytes + 1 else s.mbytes := rfl
@[simp] theorem State.push_buf (b : Byte) (c : Bool) (s : State) :
    (s.push b c).buf = s.buf.set s.blen.toNat b s.blen.isLt := rfl
theorem State.push_h (b : Byte) (c : Bool) (s : State) :
    (s.push b c).h =
      if s.blen = 63 then compress s.h (s.buf.set s.blen.toNat b s.blen.isLt).toList else s.h := rfl

/-- BLEN wraps modulo 64 (spec/40_core_control.md R106), so one equation covers both cases. -/
@[simp] theorem State.push_blen (b : Byte) (c : Bool) (s : State) :
    (s.push b c).blen = s.blen + 1 := by
  change (if s.blen = 63 then 0 else s.blen + 1) = s.blen + 1
  split
  · next h => rw [h]; rfl
  · rfl

end Sys2Proof.Machine
end

