-- ==== Sys2Proof/Laws/Ops.lean ====
section
/-! SUPPORT. What each shared operation can do, said once: the error log's bits, sequences of pushes,
the padding loop, and the form of every answer `exec` gives. -/

namespace Sys2Proof.Machine

/-! ### The error log -/

theorem logStatus_ok (e : BitVec 8) : logStatus e .ok = e := rfl

/-- R241: distinct statuses have distinct codes. -/
theorem Status.code_injective {a b : Status} (h : a.code = b.code) : a = b := by
  cases a <;> cases b <;> first | rfl | exact absurd h (by decide)

/-- R243: the bits of the error log after a command. -/
theorem logStatus_getLsbD (e : BitVec 8) (st st' : Status) (h : st' ≠ .ok) :
    (logStatus e st).getLsbD st'.code.toNat = (e.getLsbD st'.code.toNat || st' == st) := by
  cases st <;> cases st' <;> simp [logStatus, Status.code] at h ⊢

/-- R31: no command sets bit 0. -/
theorem logStatus_bit0 (e : BitVec 8) (st : Status) :
    (logStatus e st).getLsbD 0 = e.getLsbD 0 := by
  cases st <;> simp [logStatus, Status.code]

/-! ### Sequences of pushes -/

@[simp] theorem State.pushAll_nil (c : Bool) (s : State) : s.pushAll [] c = s := rfl

@[simp] theorem State.pushAll_cons (b : Byte) (bs : List Byte) (c : Bool) (s : State) :
    s.pushAll (b :: bs) c = (s.push b c).pushAll bs c := rfl

theorem State.pushAll_append (as bs : List Byte) (c : Bool) (s : State) :
    s.pushAll (as ++ bs) c = (s.pushAll as c).pushAll bs c := by
  simp [State.pushAll, List.foldl_append]

/-- A push changes the hasher's H, BUF, BLEN and MBYTES and nothing else. -/
structure State.SameButHasher (s t : State) : Prop where
  hst : t.hst = s.hst
  key : t.key = s.key
  keyv : t.keyv = s.keyv
  phase : t.phase = s.phase
  errlog : t.errlog = s.errlog
  inputs : t.inputs = s.inputs
  responses : t.responses = s.responses

theorem State.SameButHasher.refl (s : State) : s.SameButHasher s := ⟨rfl, rfl, rfl, rfl, rfl, rfl, rfl⟩

theorem State.SameButHasher.trans {s t u : State} (h : s.SameButHasher t) (k : t.SameButHasher u) :
    s.SameButHasher u :=
  ⟨k.hst.trans h.hst, k.key.trans h.key, k.keyv.trans h.keyv, k.phase.trans h.phase,
    k.errlog.trans h.errlog, k.inputs.trans h.inputs, k.responses.trans h.responses⟩

theorem State.push_frame (b : Byte) (c : Bool) (s : State) : s.SameButHasher (s.push b c) :=
  ⟨by simp, by simp, by simp, by simp, by simp, by simp, by simp⟩

theorem State.pushAll_frame (bs : List Byte) (c : Bool) (s : State) :
    s.SameButHasher (s.pushAll bs c) := by
  induction bs generalizing s with
  | nil => exact .refl s
  | cons b bs ih => exact (State.push_frame b c s).trans (ih _)

theorem State.pushAll_blen (bs : List Byte) (c : Bool) (s : State) :
    (s.pushAll bs c).blen = s.blen + BitVec.ofNat 6 bs.length := by
  induction bs generalizing s with
  | nil => simp
  | cons b bs ih =>
    rw [State.pushAll_cons, ih, State.push_blen, List.length_cons, BitVec.ofNat_add]
    simp [BitVec.add_assoc, BitVec.add_comm]

theorem State.pushAll_mbytes (bs : List Byte) (c : Bool) (s : State) :
    (s.pushAll bs c).mbytes = if c then s.mbytes + BitVec.ofNat 61 bs.length else s.mbytes := by
  induction bs generalizing s with
  | nil => simp
  | cons b bs ih =>
    rw [State.pushAll_cons, ih, State.push_mbytes, List.length_cons, BitVec.ofNat_add]
    cases c
    · rfl
    · simp only [if_true]
      rw [BitVec.add_assoc, BitVec.add_comm (1 : BitVec 61)]
      rfl

/-! ### The padding loop -/

/-- The loop is a push of zeros, as many as bring BLEN to 56, if the fuel allows them. -/
theorem State.padTo56_eq_pushAll (fuel : Nat) (s : State) (h : (56 - s.blen).toNat ≤ fuel) :
    s.padTo56 fuel = s.pushAll (List.replicate (56 - s.blen).toNat 0) false := by
  induction fuel generalizing s with
  | zero =>
    have h0 : (56 - s.blen).toNat = 0 := by omega
    rw [h0]; rfl
  | succ n ih =>
    unfold State.padTo56
    split
    · next hb => rw [hb]; rfl
    · next hb =>
      have hlt := s.blen.isLt
      have hne : s.blen.toNat ≠ 56 := fun hc => hb (BitVec.eq_of_toNat_eq hc)
      have hstep : (56 - s.blen).toNat = (56 - (s.push 0 false).blen).toNat + 1 := by
        have e56 : (56 : BitVec 6).toNat = 56 := rfl
        have e1 : (1 : BitVec 6).toNat = 1 := rfl
        simp only [State.push_blen, BitVec.toNat_sub, BitVec.toNat_add, e56, e1]
        omega
      rw [ih _ (by omega), hstep, List.replicate_succ, State.pushAll_cons]

/-- 64 pushes are enough from every state (log entry 5). -/
theorem State.padTo56_64 (s : State) :
    s.padTo56 64 = s.pushAll (List.replicate (56 - s.blen).toNat 0) false :=
  s.padTo56_eq_pushAll 64 (by have := (56 - s.blen).isLt; omega)

theorem State.padTo56_64_blen (s : State) : (s.padTo56 64).blen = 56 := by
  rw [State.padTo56_64, State.pushAll_blen, List.length_replicate, BitVec.ofNat_toNat]
  simp

/-! ### HASH_FINAL's pushes -/

theorem State.absorbTail_frame (s : State) : s.SameButHasher s.absorbTail := by
  unfold State.absorbTail
  refine (State.pushAll_frame guid true s).trans ((State.push_frame 0x80 false _).trans ?_)
  rw [State.padTo56_64]
  exact (State.pushAll_frame _ _ _).trans (State.pushAll_frame _ _ _)

theorem State.absorbTail_blen (s : State) : s.absorbTail.blen = 0 := by
  unfold State.absorbTail
  rw [State.pushAll_blen, State.padTo56_64_blen]
  simp only [lengthBytes, List.length_cons, List.length_nil]
  decide

theorem State.absorbTail_mbytes (s : State) : s.absorbTail.mbytes = s.mbytes + 36 := by
  unfold State.absorbTail
  rw [State.pushAll_mbytes, State.padTo56_64, State.pushAll_mbytes, State.push_mbytes,
    State.pushAll_mbytes]
  simp [guid]

@[simp] theorem State.finalized_hst (s : State) : s.finalized.hst = .done := by
  rw [State.finalized]
@[simp] theorem State.finalized_blen (s : State) : s.finalized.blen = 0 := by
  rw [State.finalized]; dsimp only; exact s.absorbTail_blen
@[simp] theorem State.finalized_mbytes (s : State) : s.finalized.mbytes = s.mbytes + 36 := by
  rw [State.finalized]; dsimp only; exact s.absorbTail_mbytes
@[simp] theorem State.finalized_key (s : State) : s.finalized.key = s.key := by
  rw [State.finalized]; dsimp only; exact s.absorbTail_frame.key
@[simp] theorem State.finalized_keyv (s : State) : s.finalized.keyv = s.keyv := by
  rw [State.finalized]; dsimp only; exact s.absorbTail_frame.keyv
@[simp] theorem State.finalized_phase (s : State) : s.finalized.phase = s.phase := by
  rw [State.finalized]; dsimp only; exact s.absorbTail_frame.phase
@[simp] theorem State.finalized_errlog (s : State) : s.finalized.errlog = s.errlog := by
  rw [State.finalized]; dsimp only; exact s.absorbTail_frame.errlog
@[simp] theorem State.finalized_inputs (s : State) : s.finalized.inputs = s.inputs := by
  rw [State.finalized]; dsimp only; exact s.absorbTail_frame.inputs
@[simp] theorem State.finalized_responses (s : State) : s.finalized.responses = s.responses := by
  rw [State.finalized]; dsimp only; exact s.absorbTail_frame.responses

/-! ### The form of an answer -/

/-- Everything `exec` can do to the state apart from the response: nothing, when the status is not OK;
otherwise one of the updates below. -/
inductive State.Updated (s : State) : Instr → State → Prop where
  | same (i : Instr) : State.Updated s i s
  | init : State.Updated s .hashInit
      { s with h := sha1Init, blen := 0, mbytes := 0, hst := .absorb }
  | absorb (d : Byte) (hst : s.hst = .absorb) (hl : s.atLengthLimit = false) :
      State.Updated s (.hashAbsorb d) (s.push d true)
  | final (hst : s.hst = .absorb) :
      State.Updated s .hashFinal s.finalized
  | key (j : BitVec 2) (d : Byte) : State.Updated s (.xmKey j d)
      { s with
        key := s.key.set j.toNat d j.isLt
        keyv := s.keyv ||| (1#4 <<< j.toNat)
        phase := 0 }
  | xor (d : Byte) (hk : s.keyv = 0b1111#4) :
      State.Updated s (.xmXor d) { s with phase := s.phase + 1 }
  | rewind : State.Updated s .xmRewind { s with phase := 0 }

/-- Every command answers a next state: one of the updates of `Updated`, completed by one response; and
a status other than OK comes with no update (R244). -/
theorem exec_answers (i : Instr) (s : State) :
    ∃ u st r, exec i s = .next (u.complete st r) ∧ s.Updated i u ∧ (st ≠ .ok → u = s) := by
  cases i with
  | nop => exact ⟨s, .ok, _, rfl, .same _, fun _ => rfl⟩
  | stat => exact ⟨s, .ok, _, rfl, .same _, fun _ => rfl⟩
  | hashInit => exact ⟨_, .ok, _, rfl, .init, fun h => absurd rfl h⟩
  | hashAbsorb d =>
    by_cases h : s.hst = .absorb
    · by_cases hl : s.atLengthLimit = true
      · exact ⟨s, .hashOverflow, 0, by simp [exec, execHashAbsorb, h, hl, raise, respond], .same _,
          fun _ => rfl⟩
      · exact ⟨_, .ok, 0, by simp [exec, execHashAbsorb, h, hl, respond], .absorb d h (by simpa using hl),
          fun h => absurd rfl h⟩
    · exact ⟨s, .hashState, 0, by simp [exec, execHashAbsorb, h, raise, respond], .same _, fun _ => rfl⟩
  | hashFinal =>
    by_cases h : s.hst = .absorb
    · exact ⟨_, .ok, 0, by simp [exec, execHashFinal, h, respond], .final h, fun h => absurd rfl h⟩
    · exact ⟨s, .hashState, 0, by simp [exec, execHashFinal, h, raise, respond], .same _, fun _ => rfl⟩
  | hashRddig idx =>
    refine ⟨s, if !digestIndexOk idx then .range else if s.hst ≠ .done then .hashState else .ok,
      if !digestIndexOk idx then 0 else if s.hst ≠ .done then 0 else s.h.word idx, ?_, .same _,
      fun _ => rfl⟩
    simp only [exec, execHashRddig, raise, respond]
    split <;> [rfl; (split <;> rfl)]
  | hashRdacc idx =>
    refine ⟨s, if !acceptIndexOk idx then .range else if s.hst ≠ .done then .hashState else .ok,
      if !acceptIndexOk idx then 0 else if s.hst ≠ .done then 0 else
        acceptGroup (acceptChars s.h) idx, ?_, .same _, fun _ => rfl⟩
    simp only [exec, execHashRdacc, raise, respond]
    split <;> [rfl; (split <;> rfl)]
  | fhcDec hb0 hb1 =>
    refine ⟨s, if (frameKind (headerOpn hb0)).isNone then .unknownOpcode else .ok,
      decodeImage hb0 hb1, ?_, .same _, fun _ => rfl⟩
    simp only [exec, execFhcDec, respond]
    split <;> rfl
  | fhcEncText len =>
    refine ⟨s, if !textLengthOk len then .length else .ok,
      if !textLengthOk len then 0 else pack2 0x81 (0#1 ++ len.extractLsb' 0 7), ?_, .same _,
      fun _ => rfl⟩
    simp only [exec, execFhcEncText, raise, respond]
    split <;> rfl
  | fhcEncClose => exact ⟨s, .ok, _, rfl, .same _, fun _ => rfl⟩
  | xmKey j d => exact ⟨_, .ok, _, rfl, .key j d, fun h => absurd rfl h⟩
  | xmXor d =>
    by_cases h : s.keyv = 0b1111#4
    · exact ⟨_, .ok, zext32 (d ^^^ s.keyByte s.phase), by simp [exec, execXmXor, h, respond],
        .xor d h, fun h => absurd rfl h⟩
    · exact ⟨s, .noKey, 0, by simp [exec, execXmXor, h, raise, respond], .same _, fun _ => rfl⟩
  | xmRewind => exact ⟨_, .ok, _, rfl, .rewind, fun h => absurd rfl h⟩

/-- No update touches the error log or the ports. -/
theorem State.Updated.ports {s u : State} {i : Instr} (h : s.Updated i u) :
    u.errlog = s.errlog ∧ u.inputs = s.inputs ∧ u.responses = s.responses := by
  cases h with
  | same => exact ⟨rfl, rfl, rfl⟩
  | init => exact ⟨rfl, rfl, rfl⟩
  | absorb d => exact ⟨by simp, by simp, by simp⟩
  | final => exact ⟨s.finalized_errlog, s.finalized_inputs, s.finalized_responses⟩
  | key => exact ⟨rfl, rfl, rfl⟩
  | xor => exact ⟨rfl, rfl, rfl⟩
  | rewind => exact ⟨rfl, rfl, rfl⟩

/-- R102: a word is answered as its command is, or, when it is no command, with E_ILLEGAL. -/
theorem runCommand_of_decode {cmd : Word} {i : Instr} (h : decode cmd = .ok i) (s : State) :
    runCommand cmd s = exec i s := by
  simp [runCommand, h]

theorem runCommand_of_illegal {cmd : Word} {e : DecodeError} (h : decode cmd = .error e) (s : State) :
    runCommand cmd s = .next (s.erred .illegal 0) := by
  rw [runCommand, h]
  exact congrArg _ (State.complete_error s (by decide) 0)

end Sys2Proof.Machine
end

