-- ==== Sys2Proof/Laws/Agree.lean ====
section
/-! SUPPORT. The shared operations on states no host can tell apart (`State.Agree`, spec/10_state.md
R24, R36, R37), and on states with different queues. -/

namespace Sys2Proof.Machine

/-- A push writes the same byte at the same index on both sides, and compresses only a buffer whose 64
bytes all agree. -/
theorem State.Agree.push {s t : State} (h : s.Agree t) (hst : s.hst ≠ .idle) (b : Byte) (c : Bool) :
    (s.push b c).Agree (t.push b c) := by
  have hb := h.blen
  have hbuf : ∀ n (hn : n < 64), n < s.blen.toNat + 1 →
      (s.buf.set s.blen.toNat b s.blen.isLt)[n] = (t.buf.set t.blen.toNat b t.blen.isLt)[n] := by
    intro n hn hl
    by_cases e : n = s.blen.toNat
    · subst e; simp [hb]
    · rw [Vector.getElem_set_ne _ _ (fun hc => e hc.symm),
        Vector.getElem_set_ne _ _ (by rw [← hb]; exact fun hc => e hc.symm)]
      exact h.buffer n hn (by omega)
  refine ⟨by simp [hb], by simp [h.mbytes], h.hst, h.keyv, h.phase, h.errlog, h.inputs, h.responses,
    ?_, ?_, h.keyBytes⟩
  · intro _
    rw [State.push_h, State.push_h, ← hb, h.chain hst]
    split
    · next e =>
      congr 2
      apply Vector.ext
      intro n hn
      simpa [hb] using hbuf n hn (by rw [e]; simpa using hn)
    · rfl
  · intro n hn hl
    rw [State.push_blen] at hl
    simp only [State.push_buf]
    apply hbuf n hn
    have : (s.blen + 1).toNat = (s.blen.toNat + 1) % 64 := by rw [BitVec.toNat_add]; rfl
    omega

theorem State.Agree.pushAll {s t : State} (h : s.Agree t) (hst : s.hst ≠ .idle) (bs : List Byte)
    (c : Bool) : (s.pushAll bs c).Agree (t.pushAll bs c) := by
  induction bs generalizing s t with
  | nil => exact h
  | cons b bs ih => exact ih (h.push hst b c) hst

theorem State.Agree.absorbTail {s t : State} (h : s.Agree t) (hst : s.hst ≠ .idle) :
    s.absorbTail.Agree t.absorbTail := by
  have h1 := h.pushAll hst guid true
  have i1 : (s.pushAll guid true).hst ≠ .idle := by rw [(State.pushAll_frame guid true s).hst]; exact hst
  have h2 := h1.push i1 0x80 false
  have h3 : (State.padTo56 64 ((s.pushAll guid true).push 0x80 false)).Agree
      (State.padTo56 64 ((t.pushAll guid true).push 0x80 false)) := by
    rw [State.padTo56_64, State.padTo56_64, h2.blen]
    exact h2.pushAll i1 _ _
  have i3 : (State.padTo56 64 ((s.pushAll guid true).push 0x80 false)).hst ≠ .idle := by
    rw [State.padTo56_64, (State.pushAll_frame _ _ _).hst]; exact i1
  have hl : (s.pushAll guid true).bitLength = (t.pushAll guid true).bitLength := by
    unfold State.bitLength; rw [h1.mbytes]
  unfold State.absorbTail
  rw [← hl]
  exact h3.pushAll i3 _ _

theorem State.Agree.finalized {s t : State} (h : s.Agree t) (hst : s.hst ≠ .idle) :
    s.finalized.Agree t.finalized := by
  have h5 := h.absorbTail hst
  have i5 : s.absorbTail.hst ≠ .idle := by rw [s.absorbTail_frame.hst]; exact hst
  unfold State.finalized
  generalize s.absorbTail = u at h5 i5 ⊢
  generalize t.absorbTail = v at h5 ⊢
  exact ⟨h5.blen, h5.mbytes, rfl, h5.keyv, h5.phase, h5.errlog, h5.inputs, h5.responses,
    fun _ => h5.chain i5, h5.buffer, h5.keyBytes⟩

theorem State.Agree.complete {s t : State} (h : s.Agree t) (st : Status) (r : Word) :
    (s.complete st r).Agree (t.complete st r) :=
  ⟨h.blen, h.mbytes, h.hst, h.keyv, h.phase, by simp [h.errlog], h.inputs, by simp [h.responses],
    h.chain, h.buffer, h.keyBytes⟩

/-- A sequence of pushes does not look at the queue. -/
theorem State.pushAll_withInputs (bs : List Byte) (c : Bool) (s : State) (q : List Input) :
    ({ s with inputs := q } : State).pushAll bs c = { s.pushAll bs c with inputs := q } := by
  induction bs generalizing s with
  | nil => rfl
  | cons b bs ih => rw [State.pushAll_cons, State.pushAll_cons, ← ih]; rfl

/-- HASH_FINAL's pushes do not look at the queue. -/
theorem State.finalized_withInputs (s : State) (q : List Input) :
    ({ s with inputs := q } : State).finalized = { s.finalized with inputs := q } := by
  have ht : ({ s with inputs := q } : State).absorbTail = { s.absorbTail with inputs := q } := by
    unfold State.absorbTail
    rw [State.pushAll_withInputs guid true s q]
    generalize s.pushAll guid true = u
    have hl : ({ u with inputs := q } : State).bitLength = u.bitLength := rfl
    have hp : ({ u with inputs := q } : State).push 0x80 false =
      { u.push 0x80 false with inputs := q } := rfl
    rw [hl, hp]
    generalize u.push 0x80 false = v
    rw [State.padTo56_64, State.padTo56_64, ← State.pushAll_withInputs _ _ _ q,
      ← State.pushAll_withInputs _ _ _ q]
  unfold State.finalized
  rw [ht]

end Sys2Proof.Machine
end

