-- ==== Sys2Proof/Laws/PerInstr.lean ====
section
/-! SUPPORT. The family EncodingShape, command by command: a command's word carries the opcode of
spec/30_encoding.md R72 in its top byte and a 0 in every bit its format marks reserved (R71, R78). -/

namespace Sys2Proof.Laws.EncodingShape

/-- The word of `i` has its opcode in [31:24] and its format's reserved bits 0. -/
def Statement (i : Instr) : Prop :=
  opcOf (encode i) = i.opcode ∧ encode i &&& reservedBits i.format = 0

/-- Masking acts on each part of a concatenation. -/
theorem and_append {w v : Nat} (a c : BitVec w) (b d : BitVec v) :
    (a ++ b) &&& (c ++ d) = (a &&& c) ++ (b &&& d) := by
  apply BitVec.eq_of_getLsbD_eq
  intro i hi
  simp only [BitVec.getLsbD_and, BitVec.getLsbD_append]
  by_cases h : i < v <;> simp [h]

/-- The opcode lies above the operand field (R70). -/
theorem opcode_of_encode (i : Instr) : opcOf (encode i) = i.opcode := by
  unfold opcOf encode
  rw [BitVec.extractLsb'_append_eq_of_le (by decide)]
  exact BitVec.extractLsb'_eq_self

/-- A format's reserved bits all lie in the operand field, so the word has them 0 when the field has. -/
theorem statement_of_field (i : Instr) (reserved : BitVec 24)
    (hr : reservedBits i.format = (0#8 ++ reserved : BitVec 32))
    (h : i.operandField &&& reserved = 0) : Statement i := by
  refine ⟨opcode_of_encode i, ?_⟩
  rw [hr, encode, and_append, h]
  simp

theorem nop : Statement .nop := statement_of_field _ 0xFFFFFF rfl (by decide)

theorem stat : Statement .stat := statement_of_field _ 0xFFFFFF rfl (by decide)

theorem hashInit : Statement .hashInit := statement_of_field _ 0xFFFFFF rfl (by decide)

theorem hashAbsorb (data : Byte) : Statement (.hashAbsorb data) :=
  statement_of_field _ (0xFFFF#16 ++ 0#8) rfl (by rw [Instr.operandField, and_append]; simp)

theorem hashFinal : Statement .hashFinal := statement_of_field _ 0xFFFFFF rfl (by decide)

theorem hashRddig (idx : BitVec 3) : Statement (.hashRddig idx) :=
  statement_of_field _ (0x1FFFFF#21 ++ 0#3) rfl (by rw [Instr.operandField, and_append]; simp)

theorem hashRdacc (idx : BitVec 3) : Statement (.hashRdacc idx) :=
  statement_of_field _ (0x1FFFFF#21 ++ 0#3) rfl (by rw [Instr.operandField, and_append]; simp)

theorem fhcDec (hb0 hb1 : Byte) : Statement (.fhcDec hb0 hb1) :=
  statement_of_field _ (0xFF#8 ++ 0#8 ++ 0#8) rfl
    (by rw [Instr.operandField, and_append, and_append]; simp)

theorem fhcEncText (len : BitVec 16) : Statement (.fhcEncText len) :=
  statement_of_field _ (0xFF#8 ++ 0#16) rfl (by rw [Instr.operandField, and_append]; simp)

theorem fhcEncClose : Statement .fhcEncClose := statement_of_field _ 0xFFFFFF rfl (by decide)

theorem xmKey (kidx : BitVec 2) (data : Byte) : Statement (.xmKey kidx data) :=
  statement_of_field _ (0x3F#6 ++ 0#2 ++ 0xFF#8 ++ 0#8) rfl
    (by rw [Instr.operandField, and_append, and_append, and_append]; simp)

theorem xmXor (data : Byte) : Statement (.xmXor data) :=
  statement_of_field _ (0xFFFF#16 ++ 0#8) rfl (by rw [Instr.operandField, and_append]; simp)

theorem xmRewind : Statement .xmRewind := statement_of_field _ 0xFFFFFF rfl (by decide)

end Sys2Proof.Laws.EncodingShape
end

