-- ==== Sys2Proof/Laws/Encoding.lean ====
section
/-! SUPPORT. Reserved bits and the decoder: what makes every word of an opcode with a reserved bit set
illegal (spec/30_encoding.md R74). -/

namespace Sys2Proof.Machine

/-- R70: the opcode of a word given as its opcode and its operand field. -/
theorem opcOf_append (opc : Byte) (operands : BitVec 24) : opcOf (opc ++ operands : BitVec 32) = opc := by
  unfold opcOf
  rw [BitVec.extractLsb'_append_eq_of_le (by decide)]
  exact BitVec.extractLsb'_eq_self

/-- R74: an opcode of R72's map whose format reserves `reserved` raises E_ILLEGAL on every word with one
of those bits set. -/
theorem raisesIllegal_of_row (opc : Byte) (f : Format) (reserved : BitVec 24)
    (hrow : ∀ cmd : Word, ∃ i, rowOf opc cmd = some (f, i))
    (hr : reservedBits f = (0#8 ++ reserved : BitVec 32)) : RaisesIllegal opc reserved := by
  intro operands s ho
  obtain ⟨i, hi⟩ := hrow (opc ++ operands)
  refine runCommand_of_illegal (e := .reservedBitSet) ?_ s
  rw [decode, opcOf_append, hi]
  dsimp only
  rw [if_neg]
  rw [hr, Laws.EncodingShape.and_append]
  intro hc
  apply ho
  have h := congrArg (BitVec.extractLsb' 0 24) hc
  rw [BitVec.extractLsb'_append_eq_of_add_le (by decide), BitVec.extractLsb'_eq_self] at h
  simpa using h

end Sys2Proof.Machine
end

