-- ==== Sys2Proof/Laws/Hash.lean ====
section
/-! SUPPORT. What a sequence of pushes does to the hash: the bytes pending in BUF and the pushed bytes
are cut into 64-byte blocks, each full block is compressed, and the rest stays pending
(spec/41_sha1_hasher.md R130). -/

namespace Sys2Proof.Machine

/-- R24: the message bytes absorbed since the last compression, `S.BUF[0 .. S.BLEN-1]`. -/
def State.pending (s : State) : List Byte := s.buf.toList.take s.blen.toNat

theorem State.pending_length (s : State) : s.pending.length = s.blen.toNat := by
  have := s.blen.isLt
  simp [State.pending]
  omega

theorem State.pending_of_blen_zero {s : State} (h : s.blen = 0) : s.pending = [] := by
  simp [State.pending, h]

theorem State.push_pending_of_ne {s : State} (b : Byte) (c : Bool) (h : s.blen ≠ 63) :
    (s.push b c).pending = s.pending ++ [b] := by
  have hlt := s.blen.isLt
  have hne : s.blen.toNat ≠ 63 := fun hc => h (BitVec.eq_of_toNat_eq hc)
  have hn : (s.blen + 1).toNat = s.blen.toNat + 1 := by
    rw [BitVec.toNat_add]
    have : (1 : BitVec 6).toNat = 1 := rfl
    omega
  simp only [State.pending, State.push_buf, State.push_blen, hn, Vector.toList_set]
  rw [List.take_add_one, List.take_set_of_le (Nat.le_refl _),
    List.getElem?_set_self (by simp; omega)]
  rfl

theorem State.push_pending_of_full {s : State} (b : Byte) (c : Bool) (h : s.blen = 63) :
    (s.push b c).pending = [] :=
  State.pending_of_blen_zero (by rw [State.push_blen, h]; rfl)

theorem State.push_h_of_ne {s : State} (b : Byte) (c : Bool) (h : s.blen ≠ 63) :
    (s.push b c).h = s.h := by
  rw [State.push_h, if_neg h]

theorem State.push_h_of_full {s : State} (b : Byte) (c : Bool) (h : s.blen = 63) :
    (s.push b c).h = compress s.h (s.pending ++ [b]) := by
  have hb : s.blen.toNat = 63 := by rw [h]; rfl
  have hlen : s.buf.toList.length = 64 := by simp
  rw [State.push_h, if_pos h, State.pending]
  congr 1
  simp only [Vector.toList_set, hb]
  apply List.ext_getElem
  · simp
  · intro n h1 h2
    by_cases hn : n = 63
    · subst hn; simp
    · have : n < 63 := by simp at h1; omega
      rw [List.getElem_set_ne (by omega), List.getElem_append_left (by simp; omega),
        List.getElem_take]

theorem compressBlocks_succ (n : Nat) (h : Chain) (xs ys : List Byte) (hx : xs.length = 64) :
    compressBlocks (n + 1) h (xs ++ ys) = compressBlocks n (compress h xs) ys := by
  have ht : (xs ++ ys).take 64 = xs := by rw [← hx]; exact List.take_left
  have hd : (xs ++ ys).drop 64 = ys := by rw [← hx]; exact List.drop_left
  rw [compressBlocks, ht, hd]

/-- R130: a sequence of pushes compresses the full blocks of the pending and pushed bytes, in order, and
leaves the rest pending. -/
theorem State.pushAll_hash (bs : List Byte) (c : Bool) (s : State) :
    (s.pushAll bs c).h =
        compressBlocks ((s.pending ++ bs).length / 64) s.h (s.pending ++ bs) ∧
      (s.pushAll bs c).pending =
        (s.pending ++ bs).drop (64 * ((s.pending ++ bs).length / 64)) := by
  induction bs generalizing s with
  | nil =>
    have := s.blen.isLt
    have h0 : (s.pending ++ []).length / 64 = 0 := by
      rw [List.append_nil, State.pending_length]; omega
    rw [h0]
    exact ⟨rfl, by simp⟩
  | cons b bs ih =>
    rw [State.pushAll_cons, (ih _).1, (ih _).2]
    by_cases h : s.blen = 63
    · have hp : (s.pending ++ [b]).length = 64 := by
        rw [List.length_append, State.pending_length, h]; rfl
      have hsplit : s.pending ++ b :: bs = (s.pending ++ [b]) ++ bs := by simp
      have hdiv : ((s.pending ++ [b]) ++ bs).length / 64 = bs.length / 64 + 1 := by
        rw [List.length_append, hp]; omega
      rw [State.push_pending_of_full b c h, State.push_h_of_full b c h, List.nil_append, hsplit,
        hdiv, compressBlocks_succ _ _ _ _ hp]
      refine ⟨rfl, ?_⟩
      rw [Nat.mul_add, Nat.mul_one, Nat.add_comm, ← List.drop_drop, ← hp, List.drop_left]
    · rw [State.push_pending_of_ne b c h, State.push_h_of_ne b c h, List.append_assoc]
      exact ⟨rfl, rfl⟩

/-- Compression of `a + b` blocks is that of the first `a` and then of the next `b`. -/
theorem compressBlocks_add (a b : Nat) (h : Chain) (xs : List Byte) :
    compressBlocks (a + b) h xs = compressBlocks b (compressBlocks a h xs) (xs.drop (64 * a)) := by
  induction a generalizing h xs with
  | zero => simp [compressBlocks]
  | succ a ih =>
    rw [Nat.succ_add, compressBlocks, ih, compressBlocks, List.drop_drop]
    congr 2
    omega

/-- Compression looks only at the bytes of its blocks. -/
theorem compressBlocks_append (a : Nat) (h : Chain) (xs ys : List Byte) (hx : 64 * a ≤ xs.length) :
    compressBlocks a h (xs ++ ys) = compressBlocks a h xs := by
  induction a generalizing h xs with
  | zero => rfl
  | succ a ih =>
    rw [compressBlocks, compressBlocks, List.take_append_of_le_length (by omega),
      List.drop_append_of_le_length (by omega), ih]
    simp
    omega

end Sys2Proof.Machine
end

