-- ==== Sys2Proof/Laws/Run.lean ====
section
/-! SUPPORT. One step and many: what `step` does with each kind of input, and how a run goes on. -/

namespace Sys2Proof.Machine

theorem step_no_input {s : State} (h : s.inputs = []) : step s = .next s := by
  rw [step, cycle, State.takeInput_nil h]

theorem step_command {s : State} {cmd : Word} {rest : List Input}
    (h : s.inputs = .command cmd :: rest) : step s = runCommand cmd { s with inputs := rest } := by
  rw [step, cycle, State.takeInput_cons h]

theorem step_reset {s : State} {rest : List Input} (h : s.inputs = .reset :: rest) :
    step s = .next (State.resetBlock { s with inputs := rest }) := by
  rw [step, cycle, State.takeInput_cons h]

theorem step_placeCommand (cmd : Word) (s : State) : step (s.placeCommand cmd) = runCommand cmd s := by
  rw [step, cycle, State.takeInput_placeCommand]

theorem runFor_zero (s : State) : runFor 0 s = .next s := rfl

theorem runFor_succ {s t : State} (h : step s = .next t) (k : Nat) :
    runFor (k + 1) s = runFor k t := by
  simp only [runFor, h]

/-- A run of `j + k` steps is a run of `j` and then one of `k`. -/
theorem runFor_add {s t : State} (j k : Nat) (h : runFor j s = .next t) :
    runFor (j + k) s = runFor k t := by
  induction j generalizing s with
  | zero => rw [Nat.zero_add]; cases h; rfl
  | succ j ih =>
    rw [Nat.succ_add]
    simp only [runFor] at h ⊢
    split at h
    · exact ih h
    · cases h
    · cases h

/-- `runFor` is the host's run of this machine. -/
theorem runFor_eq_core_run (k : Nat) (s : State) : runFor k s = Host.Core.run core k s := by
  induction k generalizing s with
  | zero => rfl
  | succ k ih =>
    have hs : core.step s = step s := rfl
    simp only [runFor, Host.Core.run, hs]
    split
    · next t h => rw [h]; exact ih t
    · next h => rw [h]; rfl
    · next h => rw [h]; rfl

end Sys2Proof.Machine
end

