-- ==== Sys2Proof/Laws/Session.lean ====
section
/-! SUPPORT. The session's shared operations (spec/45_host_protocol.md): what a write, a read and the
issue of a command come to. -/

namespace Sys2Proof.Machine

theorem Session.write_of_open {x : Session} (h : x.writeFails = false) (bytes : List Byte) :
    x.write bytes = .next { x with written := x.written ++ bytes } := by
  simp [Session.write, h]

theorem Session.write_of_failing {x : Session} (h : x.writeFails = true) (bytes : List Byte) :
    x.write bytes = .next { x with phase := .ended .writeFailed } := by
  simp [Session.write, Session.fail, h]

/-- A read whose bytes have all been delivered takes exactly them. -/
theorem Session.reading_of_delivered {x : Session} {bytes rest : List Byte} {n : Nat}
    (hs : x.stream = bytes ++ rest) (hn : bytes.length = n)
    (k : Session → List Byte → SessionOutcome) :
    x.reading n k = k { x with stream := rest } bytes := by
  unfold Session.reading Session.read
  rw [hs, if_pos (by simp [hn])]
  simp [← hn]

/-- The host gets the response that the command gives. -/
theorem issue_of_exec {i : Instr} {b t : State} {r : Response} (hd : decode (encode i) = .ok i)
    (hx : exec i b = .next t) (hr : t.responses = b.responses ++ [r]) : issue i b = some (r, t) := by
  unfold issue
  rw [step_placeCommand, runCommand_of_decode hd, hx]
  simp [hr]

theorem issueAll_cons {i : Instr} {is : List Instr} {b t u : State} {r : Response}
    {rs : List Response} (h : issue i b = some (r, t)) (hs : issueAll is t = some (rs, u)) :
    issueAll (i :: is) b = some (r :: rs, u) := by
  simp [issueAll, h, hs]

end Sys2Proof.Machine
end

