-- ==== Sys2Proof/Tests/Slice0.lean ====
section
/-! SUPPORT. Tests of this sitting. Expected values come from spec/95_test_vectors.md or from the rule
named beside them, never from the model. After the tests stand the witnesses: for each obligation with
hypotheses, a state and operands that meet them together. -/

-- One test after another: tests that wait for the kernel side by side hold a thread and its stack each.
set_option Elab.async false

namespace Sys2Proof.Tests

open Sys2Proof.Machine Sys2Proof.Config

/-! ### Well-formedness: each check refuses an ill-formed word (R74, R75, R76) -/

theorem test_wf_every_row : matchRows.all (fun r => wellFormedWord r.matchWord) = true := by decide

theorem test_wf_refuses_unassigned_opcodes :
    [0x02000000#32, 0x15000000#32, 0x23000000#32, 0x33000000#32, 0xFFFFFFFF#32].all
      (fun cmd => !wellFormedWord cmd) = true := by decide

theorem test_wf_refuses_format_N : wellFormedWord 0x00000001 = false := by decide
theorem test_wf_refuses_format_B : wellFormedWord 0x11000100 = false := by decide
theorem test_wf_refuses_format_I : wellFormedWord 0x13000008 = false := by decide
theorem test_wf_refuses_format_H : wellFormedWord 0x20010000 = false := by decide
theorem test_wf_refuses_format_L : wellFormedWord 0x21010000 = false := by decide
theorem test_wf_refuses_format_K : wellFormedWord 0x30040000 = false := by decide

/-- No command is ill-formed: the largest value of each operand is in its range (log entry 13). -/
theorem test_wf_largest_operands :
    [Instr.hashAbsorb 0xFF, .hashRddig 7, .hashRdacc 7, .fhcDec 0xFF 0xFF, .fhcEncText 0xFFFF,
      .xmKey 3 0xFF, .xmXor 0xFF].all Instr.wellFormed = true := by decide

/-! ### Decoding: words written out from the bit patterns of R71 and the opcodes of R72 -/

theorem test_decode_nop : decode 0b00000000_000000000000000000000000#32 = .ok .nop := by decide
theorem test_decode_stat : decode 0b00000001_000000000000000000000000#32 = .ok .stat := by decide
theorem test_decode_hashInit : decode 0b00010000_000000000000000000000000#32 = .ok .hashInit := by decide
theorem test_decode_hashAbsorb :
    decode 0b00010001_0000000000000000_01100100#32 = .ok (.hashAbsorb 0x64) := by decide
theorem test_decode_hashFinal :
    decode 0b00010010_000000000000000000000000#32 = .ok .hashFinal := by decide
theorem test_decode_hashRddig :
    decode 0b00010011_000000000000000000000_100#32 = .ok (.hashRddig 4) := by decide
theorem test_decode_hashRdacc :
    decode 0b00010100_000000000000000000000_110#32 = .ok (.hashRdacc 6) := by decide
theorem test_decode_fhcDec :
    decode 0b00100000_00000000_10000001_10000101#32 = .ok (.fhcDec 0x81 0x85) := by decide
theorem test_decode_fhcEncText :
    decode 0b00100001_00000000_0000000010000000#32 = .ok (.fhcEncText 128) := by decide
theorem test_decode_fhcEncClose :
    decode 0b00100010_000000000000000000000000#32 = .ok .fhcEncClose := by decide
theorem test_decode_xmKey :
    decode 0b00110000_000000_10_00000000_00000011#32 = .ok (.xmKey 2 0x03) := by decide
theorem test_decode_xmXor :
    decode 0b00110001_0000000000000000_01101001#32 = .ok (.xmXor 0x69) := by decide
theorem test_decode_xmRewind :
    decode 0b00110010_000000000000000000000000#32 = .ok .xmRewind := by decide

/-- R74, R75: the two reasons a word is no command. -/
theorem test_decode_rejects :
    decode 0x31000100 = .error .reservedBitSet ∧ decode 0x0F123456 = .error .unassignedOpcode := by decide

/-- A row's bits as the table numbers them, an unassigned opcode, and a row longer than a command. -/
theorem test_decodeTableWord :
    decodeTableWord 32 0x14000006 = some (.hashRdacc 6) ∧ decodeTableWord 32 0x02000000 = none ∧
      decodeTableWord 40 0 = none := by decide

/-! ### States and answers the tests use -/

/-- A message in progress with `n` bytes absorbed, none of them written out, and H at its initial
value. -/
def absorbing (n : Nat) : State :=
  { State.reset with
    h := sha1Init, blen := BitVec.ofNat 6 n, mbytes := BitVec.ofNat 61 n, hst := .absorb }

/-- The hasher after V1's HASH_FINAL. -/
def finished : State :=
  { State.reset with
    h := ⟨0xB37A4F2C, 0xC0624F16, 0x90F64606, 0xCF385945, 0xB2BEC4EA⟩, mbytes := 60, hst := .done }

/-- The masker after V4's key load. -/
def keyed : State := { State.reset with key := #v[0x01, 0x02, 0x03, 0x04], keyv := 0b1111 }

/-- The state a step or a command leaves. -/
def after (o : Host.Outcome State Fault Refusal) : Option State :=
  match o with
  | .next t => some t
  | .fault _ => none
  | .refused _ => none

/-- The last response of the state a step or a command leaves. -/
def answer (o : Host.Outcome State Fault Refusal) : Option Response :=
  (after o).bind (fun t => t.responses.getLast?)

/-- A step over one command word from the host. -/
def stepOn (s : State) (cmd : Word) : Host.Outcome State Fault Refusal :=
  step (s.withFetchWord 32 cmd.toNat)

/-! ### One step per command -/

/-- V10. -/
theorem test_nop : after (stepOn State.reset 0x00000000) =
    some { State.reset with responses := [⟨.ok, 0⟩] } := by decide +kernel

/-- V10: a reserved bit, and an unassigned opcode. -/
theorem test_illegal_words :
    answer (stepOn State.reset 0x01000080) = some ⟨.illegal, 0⟩ ∧
    after (stepOn State.reset 0xFFFFFFFF) =
      some { State.reset with errlog := 0x02, responses := [⟨.illegal, 0⟩] } := by decide +kernel

/-- V11, first STAT. -/
theorem test_stat_fields :
    answer (stepOn { absorbing 3 with keyv := 0b0101 } 0x01000000) = some ⟨.ok, 0x0000050D⟩ := by
  decide +kernel

/-- V12, V28: ERRLOG and PHASE in the image. -/
theorem test_stat_errlog_phase :
    answer (stepOn { State.reset with errlog := 0xDE } 0x01000000) = some ⟨.ok, 0x00DE0000⟩ ∧
    answer (stepOn { State.reset with keyv := 0b1111, phase := 2, errlog := 0x80 } 0x01000000) =
      some ⟨.ok, 0x00802F00⟩ := by decide +kernel

/-- P3: HASH_INIT from DONE with ERRLOG 0x0E. -/
theorem test_hashInit :
    (after (stepOn { finished with errlog := 0x0E } 0x10000000)).map
      (fun t => (t.hst, t.blen, t.mbytes, t.errlog, t.h.h0)) =
      some (.absorb, 0, 0, 0x0E, 0x67452301) := by decide +kernel

/-- V13: the 64th byte compresses the block and BLEN returns to 0. -/
theorem test_hashAbsorb_full_block :
    (after (stepOn (absorbing 63) 0x11000078)).map (fun t => (t.hst, t.blen, t.mbytes)) =
      some (.absorb, 0, 64) := by decide +kernel

/-- R132: the largest count that still takes a byte, and the first that does not. -/
theorem test_hashAbsorb_limit :
    answer (stepOn (absorbing (2 ^ 61 - 38)) 0x11000078) = some ⟨.ok, 0⟩ ∧
    after (stepOn (absorbing (2 ^ 61 - 37)) 0x11000078) =
      some { absorbing (2 ^ 61 - 37) with errlog := 0x20, responses := [⟨.hashOverflow, 0⟩] } := by
  decide +kernel

/-- V14: the empty key. -/
theorem test_hashFinal_empty_key :
    (after (stepOn (absorbing 0) 0x12000000)).map (fun t => (t.hst, t.blen, t.mbytes, t.h)) =
      some (.done, 0, 36, ⟨0x29F87D40, 0x8B0C5597, 0x25EB110F, 0x6313C7CD, 0x6F1267CC⟩) := by
  decide +kernel

/-- V17: twenty bytes `x`, two compressions. -/
theorem test_hashFinal_two_blocks :
    (after (stepOn ((absorbing 0).pushAll (List.replicate 20 0x78) true) 0x12000000)).map
        (fun t => t.h) =
      some ⟨0xEE30FA30, 0xFE796CF3, 0xE82D2361, 0x4F5983FC, 0x013CB237⟩ := by
  decide +kernel

/-- V1, V12. -/
theorem test_hashRddig :
    answer (stepOn finished 0x13000004) = some ⟨.ok, 0xB2BEC4EA⟩ ∧
    answer (stepOn State.reset 0x13000005) = some ⟨.range, 0⟩ := by decide +kernel

/-- V1: the first group, `s3pP`, and the last, `xOo=`. -/
theorem test_hashRdacc :
    answer (stepOn finished 0x14000000) = some ⟨.ok, 0x73337050⟩ ∧
    answer (stepOn finished 0x14000006) = some ⟨.ok, 0x784F6F3D⟩ := by decide +kernel

/-- V16's group `/vsn` and V22's `+uYD`: the values 63 and 62 of R137's table. -/
theorem test_hashRdacc_slash_plus :
    answer (stepOn { finished with
      h := ⟨0xA90B3187, 0x635BFEFB, 0x270FDA1D, 0xE870623F, 0xA22089FD⟩ } 0x14000002) =
      some ⟨.ok, 0x2F76736E⟩ ∧
    answer (stepOn { finished with
      h := ⟨0x0C94C4FA, 0xE6039CFC, 0x624FE5BA, 0x56F206FE, 0x23D4C6FF⟩ } 0x14000001) =
      some ⟨.ok, 0x2B755944⟩ := by decide +kernel

/-- V4, V26. -/
theorem test_fhcDec_known :
    answer (stepOn State.reset 0x20008185) = some ⟨.ok, 0x01261681⟩ ∧
    answer (stepOn State.reset 0x20000A00) = some ⟨.ok, 0x0012010A⟩ := by decide +kernel

/-- V7: the fields come back with the error. -/
theorem test_fhcDec_unknown :
    after (stepOn State.reset 0x20008380) =
      some { State.reset with errlog := 0x04, responses := [⟨.unknownOpcode, 0x00800283⟩] } := by
  decide +kernel

/-- V27. -/
theorem test_fhcEncText :
    answer (stepOn State.reset 0x2100007F) = some ⟨.ok, 0x0000817F⟩ ∧
    answer (stepOn State.reset 0x21000080) = some ⟨.length, 0⟩ := by decide +kernel

/-- V6. -/
theorem test_fhcEncClose : answer (stepOn State.reset 0x22000000) = some ⟨.ok, 0x00008800⟩ := by
  decide +kernel

/-- V28: rewriting key byte 1 clears PHASE and leaves the other key bytes. -/
theorem test_xmKey :
    (after (stepOn { keyed with phase := 3 } 0x30010021)).map
      (fun t => (t.key, t.keyv, t.phase)) = some (#v[0x01, 0x21, 0x03, 0x04], 0b1111, 0) := by
  decide +kernel

/-- V5; V4's fourth byte, after which PHASE wraps to 0. -/
theorem test_xmXor :
    answer (stepOn keyed 0x31000069) = some ⟨.ok, 0x00000068⟩ ∧
    (after (stepOn { keyed with phase := 3 } 0x31000068)).map (fun t => (t.responses, t.phase)) =
      some ([⟨.ok, 0x0000006C⟩], 0) := by decide +kernel

/-- V28: three key bytes of four. -/
theorem test_xmXor_no_key :
    after (stepOn { keyed with keyv := 0b0111, phase := 2 } 0x31000055) =
      some { keyed with
        keyv := 0b0111, phase := 2, errlog := 0x80, responses := [⟨.noKey, 0⟩] } := by
  decide +kernel

/-- V28. -/
theorem test_xmRewind :
    after (stepOn { keyed with phase := 2 } 0x32000000) =
      some { keyed with responses := [⟨.ok, 0⟩] } := by
  decide +kernel

/-- R36, R270: the reset input. -/
theorem test_reset_input :
    (after (step { keyed with
        hst := .done, blen := 5, mbytes := 60, phase := 3, errlog := 0xFE, inputs := [.reset] })).map
      (fun t => (t.hst, t.blen, t.mbytes, t.keyv, t.phase, t.errlog)) =
      some (.idle, 0, 0, 0, 0, 0) := by decide +kernel

/-! ### Assembler (R79, R80) -/

theorem test_assemble :
    assembleLine "HASH_ABSORB 0x64" = some [.hashAbsorb 0x64] ∧
    assembleLine "XM_XOR 'h' ; comment" = some [.xmXor 0x68] ∧
    assembleLine "FHC_DEC 0x81, 0x85" = some [.fhcDec 0x81 0x85] ∧
    assembleLine "FHC_ENC_TEXT 5" = some [.fhcEncText 5] ∧
    assembleLine "XM_KEY 2, 0x03" = some [.xmKey 2 0x03] ∧
    assembleLine "XM_KEY 4, 0x03" = none ∧
    assembleLine "HASH_ACCEPT \"ab\"" =
      some [.hashInit, .hashAbsorb 0x61, .hashAbsorb 0x62, .hashFinal] := by decide +kernel

/-- A `;` inside quotes starts no comment (the model's choice, log entry 21). -/
theorem test_assemble_quoted_semicolon :
    assembleLine "HASH_KEY \"a;b\" ; c" = some [.hashAbsorb 0x61, .hashAbsorb 0x3B, .hashAbsorb 0x62] ∧
    assembleLine "XM_XOR ';'" = some [.xmXor 0x3B] := by decide +kernel

/-! ### The reference host (45_host_protocol.md) -/

/-- The host of V4: the reply is "ok". -/
def okHost : HostParams := ⟨.substring, [0x6F, 0x6B]⟩

/-- A session in Open whose stream has delivered `bytes`. -/
def opened (bytes : List Byte) : Session :=
  { Session.start State.reset with phase := .opened .header, stream := bytes }

/-- V4, P2: `hello` in, the reply frame out. -/
theorem test_session_text :
    (fun x : Session => (x.phase, x.texts, x.written))
      ((opened [0x81, 0x85, 1, 2, 3, 4, 0x69, 0x67, 0x6F, 0x68, 0x6E]).run okHost 3) =
      (.opened .header, [[0x68, 0x65, 0x6C, 0x6C, 0x6F]], [0x81, 0x02, 0x6F, 0x6B]) := by
  decide +kernel

/-- V6: the masked Close frame. -/
theorem test_session_close :
    (fun x : Session => (x.phase, x.stream, x.written))
      ((opened [0x88, 0x80, 0x11, 0x22, 0x33, 0x44]).run okHost 2) =
      (.closed, [], [0x88, 0x00]) := by decide +kernel

/-- R220: the Close answer of V6 on a stream that has failed. -/
theorem test_session_failed_write :
    (fun x : Session => (x.phase, x.written))
      ((opened [0x88, 0x80, 0x11, 0x22, 0x33, 0x44]).failStream.run okHost 2) =
      (.ended .writeFailed, []) := by decide +kernel

/-- P4: an unread Ping payload is taken for the next header, and the host waits for 66 bytes. -/
theorem test_session_ping_payload :
    (fun x : Session => (x.phase, x.written))
      ((opened [0x89, 0x02, 0x41, 0x42, 0x81, 0x80, 0, 0, 0, 0]).run okHost 5) =
      (.opened (.textPayload 66 false), []) := by decide +kernel

/-! ### Witnesses: states and operands that meet an obligation's hypotheses -/

theorem test_witness_EncodeOfDecode : decode 0x300300FF = .ok (.xmKey 3 0xFF) := by decide

theorem test_witness_NoTwoRowsSelectOneWord :
    (⟨"HASH_RDACC", 0x14000000, 0xFFFFFFF8⟩ : MatchRow) ∈ matchRows ∧
      0x14000007#32 &&& 0xFFFFFFF8 = 0x14000000 := by decide

/-- The first unassigned opcode above an assigned one, and the lowest reserved bit of each format. -/
theorem test_witness_IllegalWordsRaiseIllegal :
    (∀ row ∈ matchRows, row.matchWord.extractLsb' 24 8 ≠ (0x02000000#32).extractLsb' 24 8) ∧
    [0x00000001#32, 0x11000100, 0x13000008, 0x20010000, 0x21010000, 0x30000100].all
      (fun cmd => matchRows.any (fun row =>
        row.matchWord.extractLsb' 24 8 == cmd.extractLsb' 24 8 &&
          cmd &&& row.mask &&& 0x00FFFFFF != 0)) = true := by decide

/-- V4's masker with one command handed over and another behind it. -/
def queued (cmd : Word) : State := { keyed with inputs := [.command cmd, .command 0x01000000] }

theorem test_witness_StepRunsDecodedCommand :
    (queued 0x31000069).inputs = .command 0x31000069 :: [.command 0x01000000] ∧
      decode 0x31000069 = .ok (.xmXor 0x69) := by decide

/-- A word that is no command. -/
theorem test_witness_StepRunsDecodedCommand_illegal :
    (queued 0x02000000).inputs = .command 0x02000000 :: [.command 0x01000000] ∧
      ∀ i, decode 0x02000000 ≠ .ok i := by
  refine ⟨by decide, fun i h => ?_⟩
  have he : decode 0x02000000 = .error .unassignedOpcode := by decide
  rw [he] at h
  cases h

theorem test_witness_CommandAnsweredOnce :
    (queued 0x02000000).inputs = .command 0x02000000 :: [.command 0x01000000] := by decide

theorem test_witness_CommandsAnsweredInOrder :
    (queued 0x31000069).inputs = [0x31000069, 0x01000000].map Input.command ∧
      2 ≤ [0x31000069#32, 0x01000000].length := by decide

theorem test_witness_IdleBlockHoldsState : keyed.inputs = [] := by decide

theorem test_witness_ResetInputSetsResetValues :
    ({ keyed with inputs := [.reset, .command 0] } : State).inputs = .reset :: [.command 0] := by decide

/-- A message in progress after a range error, with a command handed over. -/
def midMessage : State :=
  { absorbing 3 with errlog := 0x40, responses := [⟨.range, 0⟩], inputs := [.command 0x12000000] }

theorem test_witness_StepKeepsStateInv : midMessage.Inv ∧ (after (step midMessage)).isSome = true := by
  refine ⟨⟨by decide, ?_, by decide, by decide, by decide⟩, by decide +kernel⟩
  intro st
  cases st <;> decide

/-- The invariant holds at the length limit and in DONE as well. -/
theorem test_witness_StepKeepsStateInv_bounds :
    (absorbing (2 ^ 61 - 37)).Inv ∧ finished.Inv := by
  refine ⟨⟨by decide, ?_, by decide, by decide +kernel, by decide⟩,
    ⟨by decide, ?_, by decide, by decide, by decide⟩⟩ <;> (intro st; cases st <;> decide)

/-- The masker's unwritten key bytes and BUF above BLEN differ, and a HASH_ABSORB is handed over. -/
theorem test_witness_UnwrittenStateUnobservable :
    let s : State := { midMessage with keyv := 0b0001 }
    let t : State := { s with buf := s.buf.set 3 0xEE, key := #v[0x00, 0x01, 0x02, 0x03] }
    s.Agree t ∧ (after (step s)).isSome = true := by
  refine ⟨⟨rfl, rfl, rfl, rfl, rfl, rfl, rfl, rfl, fun _ => rfl, by decide, by decide⟩,
    by decide +kernel⟩

/-- Before the first HASH_INIT, H may differ. -/
theorem test_witness_UnwrittenStateUnobservable_idle :
    State.reset.Agree { State.reset with h := sha1Init } :=
  ⟨rfl, rfl, rfl, rfl, rfl, rfl, rfl, rfl, fun h => absurd rfl h, fun _ _ _ => rfl, fun _ _ => rfl⟩

theorem test_witness_ErrorChangesOnlyErrlog :
    answer (runCommand 0x20008380 keyed) = some ⟨.unknownOpcode, 0x00800283⟩ ∧
    answer (runCommand 0x21000080 keyed) = some ⟨.length, 0⟩ := by decide +kernel

theorem test_witness_ErrlogBitsStick :
    (after (runCommand 0x21000080 midMessage)).map (fun t => t.errlog) = some 0x48 ∧
      midMessage.errlog.getLsbD 6 = true := by decide +kernel

/-- R245: each pair of conditions at once, at the ends of its range. -/
theorem test_witness_ErrorPriority :
    (5#3).toNat > 4 ∧ (7#3).toNat > 6 ∧ State.reset.hst ≠ .absorb ∧
    (0xFFFFFD#24 &&& 0xFFFFF8 ≠ 0) ∧ (0x00000F#24 &&& 0xFFFFF8 ≠ 0) ∧
    (0x010080#24 &&& 0xFF0000 ≠ 0) ∧ (0x010300#24 &&& 0xFF0000 ≠ 0) ∧
    (0x000100#24 &&& 0xFFFF00 ≠ 0) := by decide

/-- `RaisesIllegal`: the lowest and the highest reserved bit of formats N, B, I, L and K. -/
theorem test_witness_RaisesIllegal :
    (0x000001#24 &&& 0xFFFFFF ≠ 0) ∧ (0x800000#24 &&& 0xFFFFFF ≠ 0) ∧
    (0x000100#24 &&& 0xFFFF00 ≠ 0) ∧ (0x800000#24 &&& 0xFFFF00 ≠ 0) ∧
    (0x000008#24 &&& 0xFFFFF8 ≠ 0) ∧ (0x010000#24 &&& 0xFF0000 ≠ 0) ∧
    (0x000100#24 &&& 0xFCFF00 ≠ 0) ∧ (0x040000#24 &&& 0xFCFF00 ≠ 0) := by decide

/-- The last count HASH_ABSORB takes, and BLEN 62 and 63. -/
theorem test_witness_HashAbsorbTakesByte :
    ((absorbing (2 ^ 61 - 38)).hst = .absorb ∧ (absorbing (2 ^ 61 - 38)).mbytes.toNat < 2 ^ 61 - 37) ∧
    (absorbing 63).blen.toNat = 63 ∧ (absorbing 63).hst = .absorb ∧
    (absorbing 62).blen.toNat ≠ 63 ∧ (absorbing 62).hst = .absorb := by decide +kernel

theorem test_witness_HashAbsorbTakesByte_errors :
    State.reset.hst ≠ .absorb ∧ finished.hst ≠ .absorb ∧
    (absorbing (2 ^ 61 - 37)).hst = .absorb ∧
    (absorbing (2 ^ 61 - 37)).mbytes.toNat ≥ 2 ^ 61 - 37 := by decide +kernel

/-- BLEN 19, one block, and BLEN 20, two. -/
theorem test_witness_HashFinalFinishesDigest :
    (absorbing 19).hst = .absorb ∧ (absorbing 19).blen.toNat = 19 ∧
    (absorbing 20).hst = .absorb ∧ (absorbing 20).blen.toNat = 20 ∧
    (absorbing (2 ^ 61 - 37)).mbytes.toNat + 36 ≤ 2 ^ 61 - 1 ∧ finished.hst ≠ .absorb := by
  decide +kernel

theorem test_witness_HasherStateMachine :
    (absorbing 0).hst = .absorb ∧ finished.hst = .done ∧ State.reset.hst = .idle := by decide

/-- Index 4 and 5, and DONE and not. -/
theorem test_witness_HashRddigReadsDigest :
    ¬ (4#3).toNat > 4 ∧ (5#3).toNat > 4 ∧ finished.hst = .done ∧ (absorbing 0).hst ≠ .done := by decide

/-- Index 6 and 7, and DONE and not. -/
theorem test_witness_HashRdaccReadsAccept :
    ¬ (6#3).toNat > 6 ∧ (7#3).toNat > 6 ∧ finished.hst = .done ∧ State.reset.hst ≠ .done := by decide

/-- A block of commands handed to the block after reset. -/
def handed (is : List Instr) : State := { State.reset with inputs := asInputs is }

/-- One full block of message. -/
theorem test_witness_AbsorbedMessageState :
    (List.replicate 64 0x78#8).length ≤ 2 ^ 61 - 37 ∧
    (handed (.hashInit :: hashKey (List.replicate 64 0x78))).inputs =
      asInputs (.hashInit :: hashKey (List.replicate 64 0x78)) := by decide +kernel

theorem test_witness_PaddedMessageShape :
    (List.replicate 55 0x78#8).length ≤ 2 ^ 61 - 1 ∧ (List.replicate 56 0x78#8).length ≤ 2 ^ 61 - 1 := by
  decide +kernel

/-- V15's key. -/
theorem test_witness_AcceptValueLaw :
    [0x61#8].length ≤ 2 ^ 61 - 37 ∧
    (handed (hashAccept [0x61] ++ hashRdaccAll)).inputs = asInputs (hashAccept [0x61] ++ hashRdaccAll) := by
  decide +kernel

theorem test_witness_FhcEncTextEncodesHeader : (127#16).toNat ≤ 127 ∧ (128#16).toNat > 127 := by decide

theorem test_witness_EncodedHeaderDecodesNotFinal : (0#16).toNat ≤ 127 ∧ (127#16).toNat ≤ 127 := by decide

theorem test_witness_CodecIsStateless :
    (Instr.fhcDec 0x83 0x80).unit = .fhc ∧ (Instr.fhcEncText 128).unit = .fhc ∧
      Instr.fhcEncClose.unit = .fhc := by decide

theorem test_witness_XmKeyLoadsByte : (3#2) ≠ 0#2 ∧ keyed.keyByte 0 = 0x01 := by decide

/-- All four key bytes written, and three of them. -/
theorem test_witness_XmXorMasksByte :
    keyed.keyv = 0b1111#4 ∧ ({ keyed with keyv := 0b0111 } : State).keyv ≠ 0b1111#4 := by decide

/-- A bit that stays, and a bit that XM_KEY sets. -/
theorem test_witness_KeyvBitsStick :
    (after (exec (.xmKey 3 0x04) { keyed with keyv := 0b0111 })).map (fun t => t.keyv) = some 0b1111 ∧
      (0b0111#4).getLsbD (0#2).toNat = true ∧ (0b0111#4).getLsbD (3#2).toNat = false ∧
      (0b1111#4).getLsbD (3#2).toNat = true := by decide +kernel

/-- The key bytes loaded out of order, and a payload longer than the key. -/
theorem test_witness_MaskingLaw :
    [3#2, 1#2, 0#2, 2#2].Perm [0, 1, 2, 3] ∧
    (handed ([3, 1, 0, 2].map (fun j => .xmKey j 0xA5) ++ xmBytes [1, 2, 3, 4, 5])).inputs =
      asInputs ([3, 1, 0, 2].map (fun j => .xmKey j 0xA5) ++ xmBytes [1, 2, 3, 4, 5]) := by decide +kernel

/-- V8's key and bytes. -/
theorem test_witness_MaskingInvolution :
    (handed (xmKey4 0xA5 0x5A 0xFF 0x00 ++ xmBytes [0x00, 0x01, 0x80, 0xFF, 0x7E, 0x3C])).inputs =
      asInputs (xmKey4 0xA5 0x5A 0xFF 0x00 ++ xmBytes [0x00, 0x01, 0x80, 0xFF, 0x7E, 0x3C]) := by
  decide +kernel

/-- The frames: a command of each group. -/
theorem test_witness_frames :
    Instr.stat.unit = .core ∧ (Instr.fhcDec 1 0).unit = .fhc ∧ (Instr.hashRddig 0).unit = .sha ∧
      (Instr.hashAbsorb 0).unit = .sha ∧ (Instr.xmXor 0).unit = .xm := by decide

theorem test_witness_UnitsInterleaveFreely :
    Instr.hashFinal.unit ≠ (Instr.xmKey 0 1).unit ∧ Instr.hashFinal.unit ≠ .core ∧
      (Instr.xmKey 0 1).unit ≠ .core := by decide

/-- The key line of V3's request. -/
def keyLine : List Byte := keyHeader ++ [0x20] ++ utf8Bytes "dGhlIHNhbXBsZSBub25jZQ==".toList

/-- A new session whose request has come. -/
def requested (lines : List (List Byte)) : Session := (Session.start State.reset).deliverRequest lines

theorem test_witness_WrongRequestLineRejected :
    (requested [utf8Bytes "GET /ws HTTP/1.0".toList]).phase = .awaitingHandshake ∧
      (requested [utf8Bytes "GET /ws HTTP/1.0".toList]).request =
        some (utf8Bytes "GET /ws HTTP/1.0".toList :: []) ∧
      utf8Bytes "GET /ws HTTP/1.0".toList ≠ utf8Bytes "GET /ws HTTP/1.1".toList := by decide +kernel

/-- A line before the key's, two spaces, and the key's first byte not a space. -/
theorem test_witness_KeyFoundInHeaderLine :
    (∀ line ∈ [requestLine], ¬ keyHeader <:+: line) ∧
      (∀ b, [0x64#8, 0x47#8].head? = some b → isSpaceByte b = false) := by decide +kernel

/-- A line that holds the name after its first byte, where the two values of KEY_MATCH part. -/
theorem test_witness_KeyFoundInHeaderLine_inside :
    let line := [0x58#8] ++ (keyHeader ++ List.replicate 1 0x20 ++ [0x64, 0x47])
    [0x58#8] ≠ [] ∧ (∀ n < [0x58#8].length, ¬ keyHeader <+: line.drop n) ∧
      findKey .substring [line] = some [0x64, 0x47] ∧ findKey .exactPrefix [line] = none := by
  decide +kernel

theorem test_witness_HandshakeAcceptsKey :
    (requested [requestLine, keyLine]).phase = .awaitingHandshake ∧
    (requested [requestLine, keyLine]).request = some (requestLine :: [keyLine]) ∧
    findKey .substring (requestLine :: [keyLine]) = some (utf8Bytes "dGhlIHNhbXBsZSBub25jZQ==".toList) ∧
    (utf8Bytes "dGhlIHNhbXBsZSBub25jZQ==".toList).length ≤ 2 ^ 61 - 37 := by decide +kernel

/-- V3: the 101 response. -/
theorem test_session_handshake :
    (fun x : Session => (x.phase, x.written)) ((requested [requestLine, keyLine]).run okHost 1) =
      (.opened .header,
        utf8Bytes ("HTTP/1.1 101 Switching Protocols\r\nUpgrade: websocket\r\nConnection: Upgrade\r\n" ++
          "Sec-WebSocket-Accept: s3pPLMBiTxaQ9kYGzzhZRbK+xOo=\r\n\r\n").toList) := by decide +kernel

/-- R213, R214: a name's bytes, and `\r\n` as the pair 0x0D 0x0A. -/
theorem test_literal_bytes :
    utf8Bytes "\r\n".toList = [0x0D, 0x0A] ∧
    utf8Bytes "Sec-WebSocket-Key:".toList =
      [0x53, 0x65, 0x63, 0x2D, 0x57, 0x65, 0x62, 0x53, 0x6F, 0x63, 0x6B, 0x65, 0x74, 0x2D, 0x4B, 0x65,
        0x79, 0x3A] := by decide +kernel

/-- Both values of `writeFails` occur: a stream that takes bytes, and one that has failed. -/
theorem test_witness_writeFails :
    (requested [requestLine, keyLine]).writeFails = false ∧
      (requested [requestLine, keyLine]).failStream.writeFails = true := by decide +kernel

theorem test_witness_MissingKeyFallsThrough :
    (requested [requestLine]).request = some (requestLine :: []) ∧
      findKey .exactPrefix (requestLine :: []) = none := by decide +kernel

/-- Opcode nibble 3 of V7, and the neighbours 7, 11 and 0 of the valid ones. -/
theorem test_witness_UnknownOpcodeEndsSession :
    (opened [0x83, 0x80]).phase = .opened .header ∧ (opened [0x83, 0x80]).stream = 0x83 :: 0x80 :: [] ∧
      [0x83#8, 0x87, 0x8B, 0x80].all
        (fun b => b.extractLsb' 0 4 ∉ [1#4, 8#4, 9#4, 10#4]) = true := by decide

/-- V6's masked Close, and an unmasked one. -/
theorem test_witness_CloseFrameAnswered :
    (opened [0x88, 0x00]).phase = .opened .header ∧ (0x88#8).extractLsb' 0 4 = 8#4 ∧
    (0x00#8).extractLsb' 7 1 = 0#1 ∧ (0x80#8).extractLsb' 7 1 = 1#1 ∧
    (opened [0x88, 0x00]).stream = 0x88 :: 0x00 :: [] ∧
    (opened [0x88, 0x80, 1, 2, 3, 4]).stream = 0x88 :: 0x80 :: 1 :: 2 :: 3 :: 4 :: [] := by decide

theorem test_witness_PingAndPongIgnored :
    (opened [0x89, 0x00]).phase = .opened .header ∧ (opened [0x89, 0x00]).stream = 0x89 :: 0x00 :: [] ∧
      (0x89#8).extractLsb' 0 4 ∈ [9#4, 10#4] ∧ (0x8A#8).extractLsb' 0 4 ∈ [9#4, 10#4] := by decide

/-- V4's frame and key. -/
theorem test_witness_MaskedTextFrameAnswered :
    let k : BitVec 2 → Byte := fun j => BitVec.ofNat 8 (j.toNat + 1)
    let text : List Byte := [0x68, 0x65, 0x6C, 0x6C, 0x6F]
    (0x81#8).extractLsb' 0 4 = 1#4 ∧ text.length ≤ 127 ∧ validUtf8 text = true ∧
    okHost.reply.length ≤ 127 ∧
    (opened [0x81, 0x85, 1, 2, 3, 4, 0x69, 0x67, 0x6F, 0x68, 0x6E]).stream =
      0x81 :: BitVec.ofNat 8 (0x80 + text.length) :: k 0 :: k 1 :: k 2 :: k 3 ::
        (text.mapIdx (fun n b => b ^^^ k (BitVec.ofNat 2 (n % 4))) ++ []) := by decide +kernel

/-- Each read one byte short. -/
theorem test_witness_ShortReadWaitsOrEnds :
    (opened [0x81]).stream.length < 2 ∧ (opened [1, 2, 3]).stream.length < 4 ∧
    (opened []).stream.length < 1 ∧ (opened [0x81]).streamEnded = false ∧
    (opened [0x81]).endStream.streamEnded = true := by decide

/-- V4's frame with a payload that is not UTF-8 once unmasked. -/
theorem test_witness_MaskedTextFrameAnswered_invalid :
    let k : BitVec 2 → Byte := fun j => BitVec.ofNat 8 (j.toNat + 1)
    (0x81#8).extractLsb' 0 4 = 1#4 ∧ [0xA9#8].length ≤ 127 ∧ validUtf8 [0xA9] = false ∧
    (opened [0x81, 0x81, 1, 2, 3, 4, 0xA8]).stream =
      0x81 :: BitVec.ofNat 8 (0x80 + [0xA9#8].length) :: k 0 :: k 1 :: k 2 :: k 3 ::
        ([0xA9#8].mapIdx (fun n b => b ^^^ k (BitVec.ofNat 2 (n % 4))) ++ []) := by decide +kernel

/-- A two-byte character, and a continuation byte on its own, from the header. -/
theorem test_witness_UnmaskedTextPayloadHandled :
    (opened [0x81, 0x02, 0xC3, 0xA9]).phase = .opened .header ∧ (0x81#8).extractLsb' 0 4 = 1#4 ∧
    (opened [0x81, 0x02, 0xC3, 0xA9]).stream =
      0x81 :: BitVec.ofNat 8 [0xC3#8, 0xA9].length :: ([0xC3, 0xA9] ++ []) ∧
    (opened [0x81, 0x01, 0xA9]).stream = 0x81 :: BitVec.ofNat 8 [0xA9#8].length :: ([0xA9] ++ []) ∧
    validUtf8 [0xC3, 0xA9] = true ∧ validUtf8 [0xA9] = false ∧ okHost.reply.length ≤ 127 := by
  decide +kernel

/-- The same payload once its header has been decoded. -/
theorem test_witness_UnmaskedTextPayloadHandled_payload :
    let x : Session := { opened [0xC3, 0xA9] with phase := .opened (.textPayload 2 false) }
    x.phase = .opened (.textPayload [0xC3#8, 0xA9].length false) ∧ x.stream = [0xC3, 0xA9] ++ [] := by
  decide

theorem test_witness_FailedWriteEndsSession :
    let x : Session := { (opened [1, 2, 3, 4]).failStream with phase := .opened .closeKey }
    let y : Session := { (opened [0x61]).failStream with phase := .opened (.textPayload 1 false) }
    x.writeFails = true ∧ x.phase = .opened .closeKey ∧ 4 ≤ x.stream.length ∧
    y.writeFails = true ∧ y.phase = .opened (.textPayload 1 false) ∧ 1 ≤ y.stream.length := by decide

/-- The steps that would write: a 404, a 101, the answer to an unmasked Close; and a step that writes
nothing. -/
theorem test_witness_FailedWriteEndsSession_steps :
    [requested [keyLine], requested [requestLine, keyLine], opened [0x88, 0x00]].all (fun x =>
      (x.step okHost matches .next _) &&
        (x.run okHost 1).written != x.written &&
        (x.failStream.run okHost 1).phase == .ended .writeFailed) = true ∧
    ((opened [0x89, 0x00]).run okHost 1).written = (opened [0x89, 0x00]).written := by decide +kernel

theorem test_witness_EndedSessionDoesNothing :
    ({ opened [0x88, 0x00] with phase := .closed } : Session).phase = .closed ∧
    ({ opened [0x88, 0x00] with phase := .ended .truncatedRead } : Session).phase =
      .ended .truncatedRead := by decide

end Sys2Proof.Tests
end

section

/-! ## Facts about the model

The layer the obligations' proofs stand on: one equation per case of each command, what each kind of
update leaves alone, and what one step can do. -/

namespace Sys2Proof.Machine

/-! ### Responses -/

/-- R243: a completion is an answer or an error, by its status. -/
theorem State.complete_eq_ite (s : State) (st : Status) (r : Word) :
    s.complete st r = if st = .ok then s.answered r else s.erred st r := by
  split
  · next h => rw [h, State.complete_ok]
  · next h => exact State.complete_error s h r

/-- R243: no completion clears a bit of the error log. -/
theorem logStatus_getLsbD_of_set {e : BitVec 8} {n : Nat} (st : Status) (h : e.getLsbD n = true) :
    (logStatus e st).getLsbD n = true := by
  unfold logStatus
  split
  · exact h
  · rw [BitVec.getLsbD_or, h, Bool.true_or]

/-! ### The commands with more than one answer, case by case -/

section Cases

variable {s : State}

theorem exec_hashAbsorb_of_absorb (d : Byte) (h : s.hst = .absorb) (hl : s.atLengthLimit = false) :
    exec (.hashAbsorb d) s = .next ((s.push d true).complete .ok 0) := by
  simp [exec, execHashAbsorb, respond, h, hl]

theorem exec_hashAbsorb_of_limit (d : Byte) (h : s.hst = .absorb) (hl : s.atLengthLimit = true) :
    exec (.hashAbsorb d) s = .next (s.complete .hashOverflow 0) := by
  simp [exec, execHashAbsorb, raise, respond, h, hl]

theorem exec_hashAbsorb_of_ne (d : Byte) (h : s.hst ≠ .absorb) :
    exec (.hashAbsorb d) s = .next (s.complete .hashState 0) := by
  simp [exec, execHashAbsorb, raise, respond, h]

theorem exec_hashFinal_of_absorb (h : s.hst = .absorb) :
    exec .hashFinal s = .next (s.finalized.complete .ok 0) := by
  simp [exec, execHashFinal, respond, h]

theorem exec_hashFinal_of_ne (h : s.hst ≠ .absorb) :
    exec .hashFinal s = .next (s.complete .hashState 0) := by
  simp [exec, execHashFinal, raise, respond, h]

theorem exec_hashRddig_of_range {idx : BitVec 3} (hi : digestIndexOk idx = false) :
    exec (.hashRddig idx) s = .next (s.complete .range 0) := by
  simp [exec, execHashRddig, raise, respond, hi]

theorem exec_hashRddig_of_ne {idx : BitVec 3} (hi : digestIndexOk idx = true) (h : s.hst ≠ .done) :
    exec (.hashRddig idx) s = .next (s.complete .hashState 0) := by
  simp [exec, execHashRddig, raise, respond, hi, h]

theorem exec_hashRddig_of_done {idx : BitVec 3} (hi : digestIndexOk idx = true) (h : s.hst = .done) :
    exec (.hashRddig idx) s = .next (s.complete .ok (s.h.word idx)) := by
  simp [exec, execHashRddig, respond, hi, h]

theorem exec_hashRdacc_of_range {idx : BitVec 3} (hi : acceptIndexOk idx = false) :
    exec (.hashRdacc idx) s = .next (s.complete .range 0) := by
  simp [exec, execHashRdacc, raise, respond, hi]

theorem exec_hashRdacc_of_ne {idx : BitVec 3} (hi : acceptIndexOk idx = true) (h : s.hst ≠ .done) :
    exec (.hashRdacc idx) s = .next (s.complete .hashState 0) := by
  simp [exec, execHashRdacc, raise, respond, hi, h]

theorem exec_hashRdacc_of_done {idx : BitVec 3} (hi : acceptIndexOk idx = true) (h : s.hst = .done) :
    exec (.hashRdacc idx) s = .next (s.complete .ok (acceptGroup (acceptChars s.h) idx)) := by
  simp [exec, execHashRdacc, respond, hi, h]

theorem exec_xmXor_of_loaded (d : Byte) (h : s.keyv = 0b1111#4) :
    exec (.xmXor d) s =
      .next (State.complete { s with phase := s.phase + 1 } .ok (zext32 (d ^^^ s.keyByte s.phase))) := by
  simp [exec, execXmXor, respond, h]

theorem exec_xmXor_of_noKey (d : Byte) (h : s.keyv ≠ 0b1111#4) :
    exec (.xmXor d) s = .next (s.complete .noKey 0) := by
  simp [exec, execXmXor, raise, respond, h]

end Cases

/-- R38: an FHC command's status and result do not depend on the state. -/
theorem exec_fhc {i : Instr} (h : i.unit = .fhc) :
    ∃ st r, ∀ s : State, exec i s = .next (s.complete st r) := by
  cases i with
  | fhcDec hb0 hb1 =>
    cases hk : (frameKind (headerOpn hb0)).isNone with
    | true => exact ⟨.unknownOpcode, decodeImage hb0 hb1,
        fun s => by simp [exec, execFhcDec, respond, hk]⟩
    | false => exact ⟨.ok, decodeImage hb0 hb1,
        fun s => by simp [exec, execFhcDec, respond, hk]⟩
  | fhcEncText len =>
    cases hl : textLengthOk len with
    | true => exact ⟨.ok, pack2 0x81 (0#1 ++ len.extractLsb' 0 7),
        fun s => by simp [exec, execFhcEncText, respond, hl]⟩
    | false => exact ⟨.length, 0, fun s => by simp [exec, execFhcEncText, raise, respond, hl]⟩
  | fhcEncClose => exact ⟨.ok, _, fun _ => rfl⟩
  | _ => cases h

/-! ### The updates of HASH_INIT and XM_KEY -/

/-- R134: the state once HASH_INIT has started a message, before its response. -/
def State.started (s : State) : State :=
  { s with h := sha1Init, blen := 0, mbytes := 0, hst := .absorb }

theorem exec_hashInit (s : State) : exec .hashInit s = .next (s.started.complete .ok 0) := rfl

/-- R193: the state once XM_KEY has written key byte `j`, before its response. -/
def State.loadKey (s : State) (j : BitVec 2) (d : Byte) : State :=
  { s with
    key := s.key.set j.toNat d j.isLt
    keyv := s.keyv ||| (1#4 <<< j.toNat)
    phase := 0 }

theorem exec_xmKey (j : BitVec 2) (d : Byte) (s : State) :
    exec (.xmKey j d) s = .next ((s.loadKey j d).complete .ok 0) := rfl

theorem State.loadKey_keyv_getLsbD (s : State) (j n : BitVec 2) (d : Byte) :
    (s.loadKey j d).keyv.getLsbD n.toNat = (s.keyv.getLsbD n.toNat || decide (n = j)) := by
  have hbit : ∀ j n : BitVec 2, (1#4 <<< j.toNat).getLsbD n.toNat = decide (n = j) := by decide
  rw [State.loadKey, BitVec.getLsbD_or, hbit]

theorem State.loadKey_keyByte (s : State) (j n : BitVec 2) (d : Byte) :
    (s.loadKey j d).keyByte n = if n = j then d else s.keyByte n := by
  simp only [State.keyByte, State.loadKey, Vector.getElem_set, BitVec.toNat_inj, eq_comm (a := j)]

/-! ### What updates leave alone -/

theorem State.Updated.masker_of_sha {s u : State} {i : Instr} (h : s.Updated i u)
    (hi : i.unit = .sha) : u.key = s.key ∧ u.keyv = s.keyv ∧ u.phase = s.phase := by
  cases h with
  | same => exact ⟨rfl, rfl, rfl⟩
  | init => exact ⟨rfl, rfl, rfl⟩
  | absorb => exact ⟨rfl, rfl, rfl⟩
  | final => exact ⟨s.finalized_key, s.finalized_keyv, s.finalized_phase⟩
  | key => cases hi
  | xor => cases hi
  | rewind => cases hi

theorem State.Updated.hasher_of_xm {s u : State} {i : Instr} (h : s.Updated i u)
    (hi : i.unit = .xm) :
    u.h = s.h ∧ u.buf = s.buf ∧ u.blen = s.blen ∧ u.mbytes = s.mbytes ∧ u.hst = s.hst := by
  cases h with
  | same => exact ⟨rfl, rfl, rfl, rfl, rfl⟩
  | init => cases hi
  | absorb => cases hi
  | final => cases hi
  | key => exact ⟨rfl, rfl, rfl, rfl, rfl⟩
  | xor => exact ⟨rfl, rfl, rfl, rfl, rfl⟩
  | rewind => exact ⟨rfl, rfl, rfl, rfl, rfl⟩

/-- R29: an update keeps KEYV, unless it is XM_KEY's. -/
theorem State.Updated.keyv {s u : State} {i : Instr} (h : s.Updated i u) :
    u.keyv = s.keyv ∨ ∃ j d, i = .xmKey j d ∧ u = s.loadKey j d := by
  cases h with
  | same => exact .inl rfl
  | init => exact .inl rfl
  | absorb => exact .inl rfl
  | final => exact .inl s.finalized_keyv
  | key j d => exact .inr ⟨j, d, rfl, rfl⟩
  | xor => exact .inl rfl
  | rewind => exact .inl rfl

/-! ### One command word -/

/-- R102: a command word, legal or not, makes one of the updates of `Updated` and is completed by one
response. -/
theorem runCommand_answers (cmd : Word) (s : State) :
    ∃ i u st r, runCommand cmd s = .next (u.complete st r) ∧ s.Updated i u := by
  cases hd : decode cmd with
  | ok i =>
    obtain ⟨u, st, r, hx, hu, -⟩ := exec_answers i s
    exact ⟨i, u, st, r, (runCommand_of_decode hd s).trans hx, hu⟩
  | error e =>
    refine ⟨.nop, s, .illegal, 0, ?_, .same _⟩
    rw [runCommand_of_illegal hd, State.complete_error s (by decide)]

/-! ### The decoder on encoded words -/

/-- R71: what the fields of R73 read from a command's word lies in its operand field. -/
theorem extractLsb'_encode (i : Instr) {start len : Nat} (h : start + len ≤ 24) :
    (encode i).extractLsb' start len = i.operandField.extractLsb' start len := by
  rw [encode, BitVec.extractLsb'_append_eq_of_add_le h]

/-- R72, R73: the row of a command's opcode reads the command back from its word. -/
theorem rowOf_encode (i : Instr) : rowOf i.opcode (encode i) = some (i.format, i) := by
  cases i with
  | hashAbsorb d =>
    have hd : dataOf (encode (.hashAbsorb d)) = d :=
      (extractLsb'_encode _ (by decide)).trans BitVec.extractLsb'_append_eq_right
    simp [rowOf, Instr.opcode, Instr.format, hd]
  | hashRddig idx =>
    have hi : idxOf (encode (.hashRddig idx)) = idx :=
      (extractLsb'_encode _ (by decide)).trans BitVec.extractLsb'_append_eq_right
    simp [rowOf, Instr.opcode, Instr.format, hi]
  | hashRdacc idx =>
    have hi : idxOf (encode (.hashRdacc idx)) = idx :=
      (extractLsb'_encode _ (by decide)).trans BitVec.extractLsb'_append_eq_right
    simp [rowOf, Instr.opcode, Instr.format, hi]
  | fhcDec hb0 hb1 =>
    have h0 : hb0Of (encode (.fhcDec hb0 hb1)) = hb0 := by
      rw [hb0Of, extractLsb'_encode _ (by decide), Instr.operandField,
        BitVec.extractLsb'_append_eq_of_le (by decide), BitVec.extractLsb'_append_eq_right]
    have h1 : hb1Of (encode (.fhcDec hb0 hb1)) = hb1 :=
      (extractLsb'_encode _ (by decide)).trans BitVec.extractLsb'_append_eq_right
    simp [rowOf, Instr.opcode, Instr.format, h0, h1]
  | fhcEncText len =>
    have hl : lenOf (encode (.fhcEncText len)) = len :=
      (extractLsb'_encode _ (by decide)).trans BitVec.extractLsb'_append_eq_right
    simp [rowOf, Instr.opcode, Instr.format, hl]
  | xmKey kidx d =>
    have hk : kidxOf (encode (.xmKey kidx d)) = kidx := by
      rw [kidxOf, extractLsb'_encode _ (by decide), Instr.operandField,
        BitVec.extractLsb'_append_eq_of_le (by decide),
        BitVec.extractLsb'_append_eq_of_le (by decide), BitVec.extractLsb'_append_eq_right]
    have hd : dataOf (encode (.xmKey kidx d)) = d :=
      (extractLsb'_encode _ (by decide)).trans BitVec.extractLsb'_append_eq_right
    simp [rowOf, Instr.opcode, Instr.format, hk, hd]
  | xmXor d =>
    have hd : dataOf (encode (.xmXor d)) = d :=
      (extractLsb'_encode _ (by decide)).trans BitVec.extractLsb'_append_eq_right
    simp [rowOf, Instr.opcode, Instr.format, hd]
  | _ => rfl

/-- Every command's word has its opcode and a 0 in every reserved bit. -/
theorem encodingShape (i : Instr) : Laws.EncodingShape.Statement i := by
  cases i with
  | nop => exact Laws.EncodingShape.nop
  | stat => exact Laws.EncodingShape.stat
  | hashInit => exact Laws.EncodingShape.hashInit
  | hashAbsorb d => exact Laws.EncodingShape.hashAbsorb d
  | hashFinal => exact Laws.EncodingShape.hashFinal
  | hashRddig idx => exact Laws.EncodingShape.hashRddig idx
  | hashRdacc idx => exact Laws.EncodingShape.hashRdacc idx
  | fhcDec hb0 hb1 => exact Laws.EncodingShape.fhcDec hb0 hb1
  | fhcEncText len => exact Laws.EncodingShape.fhcEncText len
  | fhcEncClose => exact Laws.EncodingShape.fhcEncClose
  | xmKey kidx d => exact Laws.EncodingShape.xmKey kidx d
  | xmXor d => exact Laws.EncodingShape.xmXor d
  | xmRewind => exact Laws.EncodingShape.xmRewind

/-- R78: a command is decoded from its own word. -/
theorem decode_encode (i : Instr) : decode (encode i) = .ok i := by
  obtain ⟨hopc, hres⟩ := encodingShape i
  rw [decode, hopc, rowOf_encode]
  exact if_pos hres

/-- With a command's word next, the step executes the command. -/
theorem step_encode {s : State} {i : Instr} {rest : List Input}
    (h : s.inputs = .command (encode i) :: rest) : step s = exec i { s with inputs := rest } := by
  rw [step_command h, runCommand_of_decode (decode_encode i)]

end Sys2Proof.Machine
end

section

/-! ## The state's invariants (spec/10_state.md)

`State.Inv` and `State.Agree` are kept by the updates a command makes, by its completion, and by reset;
so every step keeps them. -/

namespace Sys2Proof.Machine

/-! ### The invariant -/

/-- R36: every state that a reset has just set meets the invariant, whatever its ports hold. -/
theorem State.Inv.resetBlock (s : State) : s.resetBlock.Inv where
  errlogBit0 := by simp
  errlogLogged := by simp
  idleCounts := by simp
  absorbCounts := by simp
  doneCounts := by simp

namespace State.Inv

variable {s : State}

theorem withInputs (h : s.Inv) (q : List Input) : State.Inv { s with inputs := q } :=
  ⟨h.errlogBit0, h.errlogLogged, h.idleCounts, h.absorbCounts, h.doneCounts⟩

/-- R243: a completion logs its status together with the response that carries it. -/
theorem complete (h : s.Inv) (st : Status) (r : Word) : (s.complete st r).Inv where
  errlogBit0 := (logStatus_bit0 s.errlog st).trans h.errlogBit0
  errlogLogged := by
    intro st' hset
    rw [State.complete_errlog] at hset
    rw [State.complete_responses]
    by_cases hok : st' = .ok
    · have h0 := (logStatus_bit0 s.errlog st).trans h.errlogBit0
      rw [hok] at hset
      exact absurd (h0.symm.trans hset) (by decide)
    · rw [logStatus_getLsbD _ _ _ hok, Bool.or_eq_true, beq_iff_eq] at hset
      rcases hset with hold | hnew
      · obtain ⟨r', hmem, hst⟩ := h.errlogLogged st' hold
        exact ⟨r', List.mem_append_left _ hmem, hst⟩
      · exact ⟨⟨st, r⟩, by simp, hnew.symm⟩
  idleCounts := h.idleCounts
  absorbCounts := h.absorbCounts
  doneCounts := h.doneCounts

/-- R25, R132: below the length limit a counted push keeps BLEN at MBYTES mod 64 and MBYTES within the
limit. -/
theorem push_counts (h : s.Inv) (d : Byte) (hst : s.hst = .absorb) (hl : s.atLengthLimit = false) :
    (s.push d true).blen.toNat = (s.push d true).mbytes.toNat % 64 ∧
      (s.push d true).mbytes.toNat + 36 ≤ Config.mbytesMax := by
  obtain ⟨hblen, -⟩ := h.absorbCounts hst
  have hlim : ¬ s.mbytes.toNat + 1 + 36 > Config.mbytesMax := of_decide_eq_false hl
  have e6 : (1 : BitVec 6).toNat = 1 := rfl
  have e61 : (1 : BitVec 61).toNat = 1 := rfl
  simp only [State.push_blen, State.push_mbytes, if_true, BitVec.toNat_add, e6, e61,
    Config.mbytesMax] at hlim ⊢
  omega

/-- Each update keeps the invariant: the log and the responses stay, and the counters move as R25 and R26
say. -/
theorem updated {u : State} {i : Instr} (h : s.Inv) (hu : s.Updated i u) : u.Inv := by
  obtain ⟨he, -, hr⟩ := hu.ports
  have bit0 : u.errlog.getLsbD 0 = false := by rw [he]; exact h.errlogBit0
  have logged : ∀ st : Status, u.errlog.getLsbD st.code.toNat = true →
      ∃ r ∈ u.responses, r.status = st := by
    rw [he, hr]; exact h.errlogLogged
  cases hu with
  | same => exact h
  | init =>
    exact ⟨bit0, logged, nofun, fun _ => ⟨rfl, of_decide_eq_true rfl⟩, nofun⟩
  | absorb d hst hl =>
    refine ⟨bit0, logged, ?_, fun _ => h.push_counts d hst hl, ?_⟩ <;> simp [hst]
  | final hst =>
    have hm := (h.absorbCounts hst).2
    have e36 : (36 : BitVec 61).toNat = 36 := rfl
    refine ⟨bit0, logged, by simp, by simp, fun _ => ⟨s.finalized_blen, ?_⟩⟩
    rw [State.finalized_mbytes, BitVec.toNat_add, e36]
    simp only [Config.mbytesMax] at hm
    omega
  | key => exact ⟨bit0, logged, h.idleCounts, h.absorbCounts, h.doneCounts⟩
  | xor => exact ⟨bit0, logged, h.idleCounts, h.absorbCounts, h.doneCounts⟩
  | rewind => exact ⟨bit0, logged, h.idleCounts, h.absorbCounts, h.doneCounts⟩

theorem runCommand (h : s.Inv) (cmd : Word) :
    ∃ t, Machine.runCommand cmd s = .next t ∧ t.Inv := by
  obtain ⟨i, u, st, r, hx, hu⟩ := runCommand_answers cmd s
  exact ⟨_, hx, (h.updated hu).complete st r⟩

/-- A step gives a next state, and it meets the invariant again. -/
theorem step (h : s.Inv) : ∃ t, Machine.step s = .next t ∧ t.Inv := by
  cases hq : s.inputs with
  | nil => exact ⟨s, step_no_input hq, h⟩
  | cons x rest =>
    cases x with
    | command cmd =>
      rw [step_command hq]
      exact (h.withInputs rest).runCommand cmd
    | reset => exact ⟨_, step_reset hq, .resetBlock _⟩

end State.Inv

/-! ### States no host can tell apart -/

namespace State.Agree

theorem refl (s : State) : s.Agree s :=
  ⟨rfl, rfl, rfl, rfl, rfl, rfl, rfl, rfl, fun _ => rfl, fun _ _ _ => rfl, fun _ _ => rfl⟩

/-- R36: what H, BUF and KEY hold after reset is no difference a host can see. -/
theorem reset (q : List Input) (c : Chain) (buf : Vector Byte 64) (key : Vector Byte 4) :
    State.Agree { State.reset with inputs := q }
      { State.reset with inputs := q, h := c, buf := buf, key := key } :=
  ⟨rfl, rfl, rfl, rfl, rfl, rfl, rfl, rfl, fun hi => absurd rfl hi,
    fun n _ hlt => absurd hlt (Nat.not_lt_zero n), fun j hj => by simp [State.reset] at hj⟩

variable {s t : State}

theorem withInputs (h : s.Agree t) (q : List Input) :
    State.Agree { s with inputs := q } { t with inputs := q } :=
  ⟨h.blen, h.mbytes, h.hst, h.keyv, h.phase, h.errlog, rfl, h.responses, h.chain, h.buffer, h.keyBytes⟩

theorem withPhase (h : s.Agree t) {p q : BitVec 2} (hp : p = q) :
    State.Agree { s with phase := p } { t with phase := q } :=
  ⟨h.blen, h.mbytes, h.hst, h.keyv, hp, h.errlog, h.inputs, h.responses, h.chain, h.buffer, h.keyBytes⟩

theorem resetBlock (h : s.Agree t) : s.resetBlock.Agree t.resetBlock := by
  rw [State.resetBlock, State.resetBlock, h.inputs, h.responses]
  exact refl _

/-- R134: HASH_INIT writes H and empties BUF, so no difference is left in them. -/
theorem started (h : s.Agree t) : s.started.Agree t.started :=
  ⟨rfl, rfl, rfl, h.keyv, h.phase, h.errlog, h.inputs, h.responses, fun _ => rfl,
    fun n _ hlt => absurd hlt (Nat.not_lt_zero n), h.keyBytes⟩

/-- R193: the byte XM_KEY marks as written is the byte it writes. -/
theorem loadKey (h : s.Agree t) (j : BitVec 2) (d : Byte) :
    (s.loadKey j d).Agree (t.loadKey j d) := by
  refine ⟨h.blen, h.mbytes, h.hst, by simp [State.loadKey, h.keyv], rfl, h.errlog, h.inputs,
    h.responses, h.chain, h.buffer, fun n hn => ?_⟩
  rw [State.loadKey_keyv_getLsbD] at hn
  rw [State.loadKey_keyByte, State.loadKey_keyByte]
  by_cases hnj : n = j
  · rw [if_pos hnj, if_pos hnj]
  · rw [if_neg hnj, if_neg hnj]
    exact h.keyBytes n (by simpa [hnj] using hn)

theorem statImage (h : s.Agree t) : s.statImage = t.statImage := by
  simp only [State.statImage, h.errlog, h.phase, h.keyv, h.blen, h.hst]

theorem atLengthLimit (h : s.Agree t) : s.atLengthLimit = t.atLengthLimit := by
  simp only [State.atLengthLimit, h.mbytes]

/-- R27: once the digest is final, both states hold the same one. -/
theorem chain_of_done (h : s.Agree t) (hd : s.hst = .done) : s.h = t.h :=
  h.chain (by rw [hd]; decide)

/-- R29: with KEYV 0b1111 every key byte has been written. -/
theorem keyByte_of_loaded (h : s.Agree t) (hk : s.keyv = 0b1111#4) (j : BitVec 2) :
    s.keyByte j = t.keyByte j := by
  have hall : ∀ j : BitVec 2, (0b1111#4).getLsbD j.toNat = true := by decide
  exact h.keyBytes j (by rw [hk]; exact hall j)

/-- R37: a command answers two such states alike and leaves two such states. -/
theorem exec (h : s.Agree t) (i : Instr) :
    ∃ (u v : State) (st : Status) (r : Word), Machine.exec i s = .next (u.complete st r) ∧
      Machine.exec i t = .next (v.complete st r) ∧ u.Agree v := by
  cases i with
  | nop => exact ⟨s, t, .ok, 0, rfl, rfl, h⟩
  | stat => exact ⟨s, t, .ok, s.statImage, rfl, by rw [h.statImage]; rfl, h⟩
  | hashInit => exact ⟨_, _, _, _, exec_hashInit s, exec_hashInit t, h.started⟩
  | hashAbsorb d =>
    by_cases hst : s.hst = .absorb
    · have hst' := h.hst.symm.trans hst
      cases hl : s.atLengthLimit
      · exact ⟨_, _, _, _, exec_hashAbsorb_of_absorb d hst hl,
          exec_hashAbsorb_of_absorb d hst' (h.atLengthLimit ▸ hl), h.push (by rw [hst]; decide) d true⟩
      · exact ⟨_, _, _, _, exec_hashAbsorb_of_limit d hst hl,
          exec_hashAbsorb_of_limit d hst' (h.atLengthLimit ▸ hl), h⟩
    · exact ⟨_, _, _, _, exec_hashAbsorb_of_ne d hst, exec_hashAbsorb_of_ne d (h.hst ▸ hst), h⟩
  | hashFinal =>
    by_cases hst : s.hst = .absorb
    · exact ⟨_, _, _, _, exec_hashFinal_of_absorb hst,
        exec_hashFinal_of_absorb (h.hst.symm.trans hst), h.finalized (by rw [hst]; decide)⟩
    · exact ⟨_, _, _, _, exec_hashFinal_of_ne hst, exec_hashFinal_of_ne (h.hst ▸ hst), h⟩
  | hashRddig idx =>
    cases hi : digestIndexOk idx with
    | false => exact ⟨_, _, _, _, exec_hashRddig_of_range hi, exec_hashRddig_of_range hi, h⟩
    | true =>
      by_cases hst : s.hst = .done
      · refine ⟨_, _, _, _, exec_hashRddig_of_done hi hst, ?_, h⟩
        rw [h.chain_of_done hst]
        exact exec_hashRddig_of_done hi (h.hst.symm.trans hst)
      · exact ⟨_, _, _, _, exec_hashRddig_of_ne hi hst, exec_hashRddig_of_ne hi (h.hst ▸ hst), h⟩
  | hashRdacc idx =>
    cases hi : acceptIndexOk idx with
    | false => exact ⟨_, _, _, _, exec_hashRdacc_of_range hi, exec_hashRdacc_of_range hi, h⟩
    | true =>
      by_cases hst : s.hst = .done
      · refine ⟨_, _, _, _, exec_hashRdacc_of_done hi hst, ?_, h⟩
        rw [h.chain_of_done hst]
        exact exec_hashRdacc_of_done hi (h.hst.symm.trans hst)
      · exact ⟨_, _, _, _, exec_hashRdacc_of_ne hi hst, exec_hashRdacc_of_ne hi (h.hst ▸ hst), h⟩
  | xmKey j d => exact ⟨_, _, _, _, exec_xmKey j d s, exec_xmKey j d t, h.loadKey j d⟩
  | xmXor d =>
    by_cases hk : s.keyv = 0b1111#4
    · refine ⟨_, _, _, _, exec_xmXor_of_loaded d hk, ?_, h.withPhase (congrArg (· + 1) h.phase)⟩
      rw [h.keyByte_of_loaded hk, h.phase]
      exact exec_xmXor_of_loaded d (h.keyv.symm.trans hk)
    · exact ⟨_, _, _, _, exec_xmXor_of_noKey d hk, exec_xmXor_of_noKey d (h.keyv ▸ hk), h⟩
  | xmRewind => exact ⟨_, _, .ok, 0, rfl, rfl, h.withPhase rfl⟩
  | fhcDec hb0 hb1 =>
    obtain ⟨st, r, hx⟩ := exec_fhc (i := .fhcDec hb0 hb1) rfl
    exact ⟨s, t, st, r, hx s, hx t, h⟩
  | fhcEncText len =>
    obtain ⟨st, r, hx⟩ := exec_fhc (i := .fhcEncText len) rfl
    exact ⟨s, t, st, r, hx s, hx t, h⟩
  | fhcEncClose =>
    obtain ⟨st, r, hx⟩ := exec_fhc (i := .fhcEncClose) rfl
    exact ⟨s, t, st, r, hx s, hx t, h⟩

theorem runCommand (h : s.Agree t) (cmd : Word) :
    ∃ s' t', Machine.runCommand cmd s = .next s' ∧ Machine.runCommand cmd t = .next t' ∧
      s'.Agree t' := by
  cases hd : decode cmd with
  | ok i =>
    obtain ⟨u, v, st, r, hs, ht, huv⟩ := h.exec i
    rw [runCommand_of_decode hd, runCommand_of_decode hd]
    exact ⟨_, _, hs, ht, huv.complete st r⟩
  | error e =>
    refine ⟨_, _, runCommand_of_illegal hd s, runCommand_of_illegal hd t, ?_⟩
    rw [← State.complete_error s (by decide), ← State.complete_error t (by decide)]
    exact h.complete .illegal 0

theorem step (h : s.Agree t) :
    ∃ s' t', Machine.step s = .next s' ∧ Machine.step t = .next t' ∧ s'.Agree t' := by
  cases hq : s.inputs with
  | nil => exact ⟨s, t, step_no_input hq, step_no_input (h.inputs ▸ hq), h⟩
  | cons x rest =>
    have hq' := h.inputs.symm.trans hq
    cases x with
    | command cmd =>
      rw [step_command hq, step_command hq']
      exact (h.withInputs rest).runCommand cmd
    | reset => exact ⟨_, _, step_reset hq, step_reset hq', (h.withInputs rest).resetBlock⟩

theorem runFor (h : s.Agree t) (k : Nat) :
    ∃ s' t', Machine.runFor k s = .next s' ∧ Machine.runFor k t = .next t' ∧ s'.Agree t' := by
  induction k generalizing s t with
  | zero => exact ⟨s, t, rfl, rfl, h⟩
  | succ k ih =>
    obtain ⟨s₁, t₁, hs, ht, h₁⟩ := h.step
    rw [runFor_succ hs, runFor_succ ht]
    exact ih h₁

end State.Agree

end Sys2Proof.Machine
end

section

/-! ## The STAT image and the absorbed message -/

namespace Sys2Proof.Machine

/-! ### The STAT image, field by field (R33) -/

theorem State.statImage_hst (s : State) : s.statImage.extractLsb' 0 2 = s.hst.code :=
  BitVec.extractLsb'_append_eq_right

theorem State.statImage_blen (s : State) : s.statImage.extractLsb' 2 6 = s.blen := by
  rw [State.statImage, BitVec.extractLsb'_append_eq_of_le (by decide)]
  exact BitVec.extractLsb'_append_eq_right

theorem State.statImage_keyv (s : State) : s.statImage.extractLsb' 8 4 = s.keyv := by
  rw [State.statImage]
  iterate 2 rw [BitVec.extractLsb'_append_eq_of_le (by decide)]
  exact BitVec.extractLsb'_append_eq_right

theorem State.statImage_phase (s : State) : s.statImage.extractLsb' 12 2 = s.phase := by
  rw [State.statImage]
  iterate 3 rw [BitVec.extractLsb'_append_eq_of_le (by decide)]
  exact BitVec.extractLsb'_append_eq_right

theorem State.statImage_zeros (s : State) : s.statImage.extractLsb' 14 2 = 0 := by
  rw [State.statImage]
  iterate 4 rw [BitVec.extractLsb'_append_eq_of_le (by decide)]
  exact BitVec.extractLsb'_append_eq_right

theorem State.statImage_errlog (s : State) : s.statImage.extractLsb' 16 8 = s.errlog := by
  rw [State.statImage]
  iterate 5 rw [BitVec.extractLsb'_append_eq_of_le (by decide)]
  exact BitVec.extractLsb'_append_eq_right

theorem State.statImage_topByte (s : State) : s.statImage.extractLsb' 24 8 = 0 := by
  rw [State.statImage]
  iterate 6 rw [BitVec.extractLsb'_append_eq_of_le (by decide)]
  exact BitVec.extractLsb'_eq_self

/-! ### A message absorbed byte by byte (R130, R135) -/

/-- `s` with `q` in its queue and `rs` as the responses given so far. -/
def State.withPorts (s : State) (q : List Input) (rs : List Response) : State :=
  { s with inputs := q, responses := rs }

/-- A sequence of pushes does not look at the ports. -/
theorem State.pushAll_withPorts (bs : List Byte) (c : Bool) (s : State) (q : List Input)
    (rs : List Response) : (s.withPorts q rs).pushAll bs c = (s.pushAll bs c).withPorts q rs := by
  induction bs generalizing s with
  | nil => rfl
  | cons b bs ih => exact ih (s.push b c)

/-- R132: a byte that leaves room for the GUID is below the length limit. -/
theorem State.atLengthLimit_eq_false {s : State} (h : s.mbytes.toNat + 1 + 36 ≤ Config.mbytesMax) :
    s.atLengthLimit = false :=
  decide_eq_false (Nat.not_lt.mpr h)

/-- R135: in ABSORB, and within the length limit, one HASH_ABSORB for each byte of `m` is a counted push
of each, answered (OK, 0) each time. -/
theorem runFor_hashKey (m : List Byte) {s : State} {rest : List Input}
    (hq : s.inputs = asInputs (hashKey m) ++ rest) (hst : s.hst = .absorb)
    (hm : s.mbytes.toNat + m.length + 36 ≤ Config.mbytesMax) :
    runFor m.length s = .next ((s.pushAll m true).withPorts rest
      (s.responses ++ List.replicate m.length ⟨.ok, 0⟩)) := by
  induction m generalizing s with
  | nil =>
    obtain rfl : s.inputs = rest := hq
    simp [runFor_zero, State.withPorts]
  | cons b m ih =>
    rw [List.length_cons] at hm ⊢
    have hl : s.atLengthLimit = false := s.atLengthLimit_eq_false (by omega)
    have hstep : step s = .next ((s.push b true).withPorts (asInputs (hashKey m) ++ rest)
        (s.responses ++ [⟨.ok, 0⟩])) :=
      (step_encode hq).trans (exec_hashAbsorb_of_absorb b hst hl)
    have hcount : (s.push b true).mbytes.toNat + m.length + 36 ≤ Config.mbytesMax := by
      have e1 : (1 : BitVec 61).toNat = 1 := rfl
      have hle := Nat.mod_le (s.mbytes.toNat + 1) (2 ^ 61)
      rw [State.push_mbytes, if_pos rfl, BitVec.toNat_add, e1]
      omega
    rw [runFor_succ hstep, ih (s := (s.push b true).withPorts _ _) rfl hst hcount,
      State.pushAll_withPorts, State.pushAll_cons]
    simp [State.withPorts, List.replicate_succ]

/-- R130: what a whole message leaves in the hasher. -/
theorem State.started_pushAll_hash (m : List Byte) (s : State) :
    (s.started.pushAll m true).h = compressBlocks (m.length / 64) sha1Init m ∧
      (s.started.pushAll m true).pending = m.drop (64 * (m.length / 64)) :=
  State.pushAll_hash m true s.started

theorem State.started_pushAll_blen (m : List Byte) (s : State) :
    (s.started.pushAll m true).blen.toNat = m.length % 64 := by
  rw [State.pushAll_blen]
  simp [State.started]

theorem State.started_pushAll_mbytes {m : List Byte} (hm : m.length < 2 ^ 61) (s : State) :
    (s.started.pushAll m true).mbytes.toNat = m.length := by
  rw [State.pushAll_mbytes, if_pos rfl]
  simpa [State.started] using Nat.mod_eq_of_lt hm

/-- HASH_INIT and then HASH_ABSORB of each byte of a message within the limit. -/
theorem runFor_hashInit_hashKey {m : List Byte} {s : State} {rest : List Input}
    (hm : m.length + 36 ≤ Config.mbytesMax)
    (hq : s.inputs = asInputs (.hashInit :: hashKey m) ++ rest) :
    runFor (m.length + 1) s = .next ((s.started.pushAll m true).withPorts rest
      (s.responses ++ List.replicate (m.length + 1) ⟨.ok, 0⟩)) := by
  have hstep : step s = .next (s.started.withPorts (asInputs (hashKey m) ++ rest)
      (s.responses ++ [⟨.ok, 0⟩])) := (step_encode hq).trans (exec_hashInit _)
  have hcount : s.started.mbytes.toNat + m.length + 36 ≤ Config.mbytesMax := by
    simpa [State.started] using hm
  rw [runFor_succ hstep, runFor_hashKey m (s := s.started.withPorts _ _) rfl rfl hcount,
    State.pushAll_withPorts]
  simp [State.withPorts, List.replicate_succ]

end Sys2Proof.Machine
end

section

/-! ## The obligations of spec/10_state.md -/

namespace Sys2Proof.Machine

/-- Settles O13: a step keeps the invariant, because each update, each completion and reset does. -/
theorem stepKeepsStateInv : Obligations.StepKeepsStateInv := by
  intro s t h hst
  obtain ⟨t', hst', ht'⟩ := h.step
  cases hst.symm.trans hst'
  exact ht'

/-- Settles O14: the steps of two states that agree, compared input by input and command by command. -/
theorem unwrittenStateUnobservable : Obligations.UnwrittenStateUnobservable := by
  intro s t s' h hs
  obtain ⟨u, t', hu, ht, hut⟩ := h.step
  cases hs.symm.trans hu
  exact ⟨t', ht, hut⟩

/-- Settles O8: the word's update keeps the ports and the log, and its completion adds the rest. -/
theorem commandAnsweredOnce : Obligations.CommandAnsweredOnce := by
  intro s cmd rest hq
  obtain ⟨i, u, st, r, hx, hu⟩ := runCommand_answers cmd { s with inputs := rest }
  obtain ⟨he, hi, hr⟩ := hu.ports
  refine ⟨_, ⟨st, r⟩, (step_command hq).trans hx, hi, congrArg (· ++ [_]) hr, ?_⟩
  rw [State.complete_errlog, he]
  rfl

/-- Settles O15: the two reset states agree, and so after any number of steps they agree still. -/
theorem resetContentsNeverShow : Obligations.ResetContentsNeverShow := by
  intro k inputs c buf key
  obtain ⟨t, u, ht, hu, htu⟩ := (State.Agree.reset inputs c buf key).runFor k
  exact ⟨t, u, ht, hu, htu.responses, htu.statImage⟩

/-- Settles O17: updates keep the error log, and a completion only sets bits, never bit 0. -/
theorem errlogBitsStick : Obligations.ErrlogBitsStick := by
  intro cmd s t hx
  obtain ⟨i, u, st, r, hx', hu⟩ := runCommand_answers cmd s
  cases hx.symm.trans hx'
  rw [State.complete_errlog, hu.ports.1]
  exact ⟨fun n hn => logStatus_getLsbD_of_set st hn, logStatus_bit0 _ _⟩

/-- Settles O27: the run is `started` and one counted push for each byte, whose hash, counters and frame
are those of `pushAll`. -/
theorem absorbedMessageState : Obligations.AbsorbedMessageState := by
  intro m s hm hq
  have hlim : m.length + 36 ≤ Config.mbytesMax := by simp only [Config.mbytesMax]; omega
  obtain ⟨hh, hpend⟩ := s.started_pushAll_hash m
  have frame := s.started.pushAll_frame m true
  exact ⟨_, runFor_hashInit_hashKey hlim (hq.trans (List.append_nil _).symm), rfl, frame.hst, hh,
    s.started_pushAll_blen m, State.started_pushAll_mbytes (by omega) s, hpend, frame.key,
    frame.keyv, frame.phase, frame.errlog⟩

/-- Settles O36: an FHC command's status and result do not depend on the state. -/
theorem codecIsStateless : Obligations.CodecIsStateless := by
  intro i s t hi
  obtain ⟨st, r, hx⟩ := exec_fhc hi
  exact ⟨st, r, by rw [hx, State.complete_eq_ite], by rw [hx, State.complete_eq_ite]⟩

/-- Settles O40: only XM_KEY's update writes KEYV, and it sets the bit of its own index. -/
theorem keyvBitsStick : Obligations.KeyvBitsStick := by
  intro i s t hx n
  obtain ⟨u, st, r, hx', hu, -⟩ := exec_answers i s
  cases hx.symm.trans hx'
  rw [State.complete_keyv]
  rcases hu.keyv with hk | ⟨j, d, rfl, rfl⟩
  · rw [hk]
    exact ⟨id, fun hf ht => absurd (hf.symm.trans ht) (by decide)⟩
  · rw [State.loadKey_keyv_getLsbD]
    refine ⟨fun hs => by rw [hs, Bool.true_or], fun hf ht => ⟨d, ?_⟩⟩
    rw [hf, Bool.false_or, decide_eq_true_eq] at ht
    rw [ht]

/-- Settles O44: the updates of the SHA commands leave the masker, and all leave the queue. -/
theorem hashCommandsLeaveMasker : Obligations.HashCommandsLeaveMasker := by
  intro i s hi
  obtain ⟨u, st, r, hx, hu, -⟩ := exec_answers i s
  obtain ⟨hkey, hkeyv, hphase⟩ := hu.masker_of_sha hi
  obtain ⟨-, hin, hr⟩ := hu.ports
  exact ⟨_, ⟨st, r⟩, hx, hkey, hkeyv, hphase, hin, congrArg (· ++ [_]) hr⟩

/-- Settles O45: the updates of the XM commands leave the hasher, and all leave the queue. -/
theorem maskCommandsLeaveHasher : Obligations.MaskCommandsLeaveHasher := by
  intro i s hi
  obtain ⟨u, st, r, hx, hu, -⟩ := exec_answers i s
  obtain ⟨hh, hbuf, hblen, hmbytes, hhst⟩ := hu.hasher_of_xm hi
  obtain ⟨-, hin, hr⟩ := hu.ports
  exact ⟨_, ⟨st, r⟩, hx, hh, hbuf, hblen, hmbytes, hhst, hin, congrArg (· ++ [_]) hr⟩

/-- Settles O11: `resetBlock` sets each of these elements. -/
theorem resetInputSetsResetValues : Obligations.ResetInputSetsResetValues := by
  intro s rest hq
  exact ⟨_, step_reset hq, rfl, rfl, rfl, rfl, rfl, rfl, rfl, rfl⟩

/-- Settles O12: the state after reset is a state that a reset has just set. -/
theorem resetMeetsStateInv : Obligations.ResetMeetsStateInv := State.Inv.resetBlock State.reset

/-- Settles O20: the image is `statImage`, read field by field. -/
theorem statAnswersImage : Obligations.StatAnswersImage := by
  refine ⟨fun s => ⟨s.statImage, rfl, ?_, s.statImage_blen, s.statImage_keyv, s.statImage_phase,
    s.statImage_zeros, s.statImage_errlog, s.statImage_topByte⟩, rfl,
    raisesIllegal_of_row 0x01 .N 0xFFFFFF (fun _ => ⟨.stat, rfl⟩) rfl⟩
  rw [s.statImage_hst]
  cases s.hst <;> rfl

end Sys2Proof.Machine
end

section

/-! ## The obligations of spec/20_memory.md -/

namespace Sys2Proof.Machine

/-- R59: the only update a read-only command makes is none. -/
theorem State.Updated.eq_of_readOnly {s u : State} {i : Instr} (h : s.Updated i u)
    (hi : i.unit = .core ∨ i.unit = .fhc ∨ ∃ n, i = .hashRddig n ∨ i = .hashRdacc n) : u = s := by
  cases h with
  | same => rfl
  | _ => rcases hi with hi | hi | ⟨_, hi | hi⟩ <;> cases hi

/-- R195: the state once XM_REWIND has put PHASE back, before its response. -/
def State.rewound (s : State) : State := { s with phase := 0 }

theorem exec_xmRewind (s : State) : exec .xmRewind s = .next (s.rewound.complete .ok 0) := rfl

theorem State.started_started_complete (s : State) (st : Status) (r : Word) :
    (s.started.complete st r).started = s.started.complete st r := rfl

theorem State.rewound_rewound_complete (s : State) (st : Status) (r : Word) :
    (s.rewound.complete st r).rewound = s.rewound.complete st r := rfl

/-- R193: a second write of the same key byte finds the byte and its KEYV bit in place. -/
theorem State.loadKey_loadKey_complete (s : State) (j : BitVec 2) (d : Byte) (st : Status) (r : Word) :
    ((s.loadKey j d).complete st r).loadKey j d = (s.loadKey j d).complete st r := by
  simp only [State.loadKey, State.complete, Vector.set_set, BitVec.or_assoc, BitVec.or_self]

/-- R59: a command that always makes the update `f` and answers (OK, 0) is idempotent in state when `f`
leaves alone what it and the response have left. -/
theorem exec_twice_of_update {i : Instr} {f : State → State}
    (hx : ∀ s, exec i s = .next ((f s).complete .ok 0))
    (hf : ∀ s, f ((f s).complete .ok 0) = (f s).complete .ok 0) (s : State) :
    ∃ t, exec i s = .next t ∧ exec i t = .next (t.answered 0) :=
  ⟨_, hx s, by rw [hx, hf, State.complete_ok]⟩

/-- Settles O9, by induction on the queue: the first step answers the first command, and leaves the
others to the rest of the run. -/
theorem commandsAnsweredInOrder : Obligations.CommandsAnsweredInOrder := by
  intro s cmds hq
  induction cmds generalizing s with
  | nil =>
    refine ⟨[], rfl, fun k hk => ?_⟩
    cases Nat.le_zero.mp hk
    exact ⟨s, runFor_zero s, (List.append_nil _).symm, hq⟩
  | cons cmd cmds ih =>
    obtain ⟨t, r, hstep, hin, hr, -⟩ := commandAnsweredOnce s cmd _ hq
    obtain ⟨rs, hlen, hrun⟩ := ih t hin
    refine ⟨r :: rs, congrArg (· + 1) hlen, fun k hk => ?_⟩
    cases k with
    | zero => exact ⟨s, runFor_zero s, (List.append_nil _).symm, hq⟩
    | succ k =>
      obtain ⟨u, hu, hur, huq⟩ := hrun k (Nat.le_of_succ_le_succ hk)
      refine ⟨u, (runFor_succ hstep k).trans hu, ?_, huq⟩
      rw [hur, hr, List.append_assoc, List.singleton_append, List.take_succ_cons]

/-- Settles O43: a read-only command makes no update, so its completion is all that changes. -/
theorem readOnlyCommandsFrame : Obligations.ReadOnlyCommandsFrame := by
  intro i s hi
  obtain ⟨u, st, r, hx, hu, -⟩ := exec_answers i s
  exact ⟨st, r, by rw [hx, hu.eq_of_readOnly hi, State.complete_eq_ite]⟩

/-- Settles O46: the updates of the three commands leave alone what they have left. -/
theorem repeatedCommandsIdempotent : Obligations.RepeatedCommandsIdempotent := by
  rintro i s (rfl | rfl | ⟨j, d, rfl⟩)
  · exact exec_twice_of_update exec_hashInit (fun s => s.started_started_complete .ok 0) s
  · exact exec_twice_of_update exec_xmRewind (fun s => s.rewound_rewound_complete .ok 0) s
  · exact exec_twice_of_update (exec_xmKey j d) (fun s => s.loadKey_loadKey_complete j d .ok 0) s

end Sys2Proof.Machine
end

section

/-! ## The obligations of spec/30_encoding.md

A decoded word is the word of its command; the word of a command selects its row; and rows have
distinct opcodes. The statements about the match and mask words follow from these three. -/

namespace Sys2Proof

open Sys2Proof.Machine

/-! ### From a decoded word back to the word (R71, R78) -/

/-- R71: the operand field that format `f` gives the fields of R73 read from `cmd`, with 0 in every bit it
marks `0`. -/
def Format.fields (f : Format) (cmd : Word) : BitVec 24 :=
  match f with
  | .N => 0#24
  | .B => 0#16 ++ dataOf cmd
  | .I => 0#21 ++ idxOf cmd
  | .H => 0#8 ++ hb0Of cmd ++ hb1Of cmd
  | .L => 0#8 ++ lenOf cmd
  | .K => 0#6 ++ kidxOf cmd ++ 0#8 ++ dataOf cmd

/-- R72: a command read from the row of an opcode has that opcode, and its operands are the word's
fields. -/
theorem opcode_and_operandField_of_rowOf {opc : Byte} {cmd : Word} {f : Format} {i : Instr}
    (h : rowOf opc cmd = some (f, i)) : i.opcode = opc ∧ i.operandField = f.fields cmd := by
  unfold rowOf at h
  split at h <;> cases h <;> exact ⟨rfl, rfl⟩

/-- R78: a run of bits that the format reserves is 0 in a word that has its reserved bits 0. -/
theorem extractLsb'_eq_zero_of_reserved {cmd : Word} {f : Format} (h : cmd &&& reservedBits f = 0)
    (start len : Nat) (hr : (reservedBits f).extractLsb' start len = BitVec.allOnes len) :
    cmd.extractLsb' start len = 0#len := by
  calc cmd.extractLsb' start len
      = (cmd &&& reservedBits f).extractLsb' start len := by
        rw [BitVec.extractLsb'_and, hr, BitVec.and_allOnes]
    _ = 0#len := by rw [h]; exact BitVec.extractLsb'_zero

/-- R71: with the reserved bits 0, the fields are the whole operand field. -/
theorem fields_eq_extractLsb' {cmd : Word} {f : Format} (h : cmd &&& reservedBits f = 0) :
    f.fields cmd = cmd.extractLsb' 0 24 := by
  have hz := extractLsb'_eq_zero_of_reserved h
  cases f with
  | N => exact (hz 0 24 rfl).symm
  | B =>
    rw [Format.fields, ← hz 8 16 rfl]
    exact BitVec.extractLsb'_append_extractLsb'_eq_extractLsb' rfl
  | I =>
    rw [Format.fields, ← hz 3 21 rfl]
    exact BitVec.extractLsb'_append_extractLsb'_eq_extractLsb' rfl
  | H =>
    rw [Format.fields, ← hz 16 8 rfl, hb0Of,
      BitVec.extractLsb'_append_extractLsb'_eq_extractLsb' (start₁ := 8) (start₂ := 16) rfl]
    exact BitVec.extractLsb'_append_extractLsb'_eq_extractLsb' rfl
  | L =>
    rw [Format.fields, ← hz 16 8 rfl]
    exact BitVec.extractLsb'_append_extractLsb'_eq_extractLsb' rfl
  | K =>
    rw [Format.fields, ← hz 18 6 rfl, ← hz 8 8 rfl, kidxOf,
      BitVec.extractLsb'_append_extractLsb'_eq_extractLsb' (start₁ := 16) (start₂ := 18) rfl,
      BitVec.extractLsb'_append_extractLsb'_eq_extractLsb' (start₁ := 8) (start₂ := 16) rfl]
    exact BitVec.extractLsb'_append_extractLsb'_eq_extractLsb' rfl

/-- R78: what decoding a word to a command takes. -/
theorem decode_eq_ok_iff {cmd : Word} {i : Instr} :
    decode cmd = .ok i ↔ ∃ f, rowOf (opcOf cmd) cmd = some (f, i) ∧ cmd &&& reservedBits f = 0 := by
  unfold decode
  cases rowOf (opcOf cmd) cmd with
  | none => simp
  | some row =>
    obtain ⟨f, j⟩ := row
    by_cases hr : cmd &&& reservedBits f = 0
    · simp [hr]
    · simp only [if_neg hr]
      refine ⟨nofun, fun ⟨g, hg, hg0⟩ => ?_⟩
      cases hg
      exact absurd hg0 hr

/-- R76: a word that decodes is the word of its command. -/
theorem encode_of_decode {cmd : Word} {i : Instr} (h : decode cmd = .ok i) : encode i = cmd := by
  obtain ⟨f, hrow, hres⟩ := decode_eq_ok_iff.mp h
  obtain ⟨hopc, hfield⟩ := opcode_and_operandField_of_rowOf hrow
  rw [encode, hopc, hfield, fields_eq_extractLsb' hres]
  exact BitVec.extractLsb'_append_extractLsb'

/-! ### The match and mask words (R72) -/

/-- R72: the opcode bytes of the table are distinct. -/
theorem MatchRow.eq_of_opcode {a b : MatchRow} (ha : a ∈ matchRows) (hb : b ∈ matchRows)
    (h : opcOf a.matchWord = opcOf b.matchWord) : a = b := by
  have hnodup : (matchRows.map fun row => opcOf row.matchWord).Nodup := by decide
  exact List.inj_on_of_nodup_map hnodup ha hb h

/-- R72: every mask covers [31:24], so a selected word has the row's opcode. -/
theorem opcOf_eq_of_selected {row : MatchRow} (hrow : row ∈ matchRows) {cmd : Word}
    (h : cmd &&& row.mask = row.matchWord) : opcOf cmd = opcOf row.matchWord := by
  have hmask : ∀ row ∈ matchRows, opcOf row.mask = BitVec.allOnes 8 := by decide
  calc opcOf cmd = opcOf (cmd &&& row.mask) := by
        rw [opcOf, opcOf, BitVec.extractLsb'_and, ← opcOf, ← opcOf, hmask row hrow,
          BitVec.and_allOnes]
    _ = opcOf row.matchWord := by rw [h]

/-- R72: the match word has no bit in the operand field. -/
theorem matchWord_operand_eq_zero : ∀ row ∈ matchRows, row.matchWord &&& 0x00FFFFFF = 0 := by
  decide

/-- R72, R78: a row's opcode names a format, whose reserved bits are those of the row's mask in [23:0]. -/
theorem rowOf_matchRow {row : MatchRow} (hrow : row ∈ matchRows) (cmd : Word) :
    ∃ f i, rowOf (opcOf row.matchWord) cmd = some (f, i) ∧
      reservedBits f = row.mask &&& 0x00FFFFFF := by
  fin_cases hrow <;> exact ⟨_, _, rfl, rfl⟩

/-- R72: every command has a row, with its opcode as the match word, and its opcode's bits and its
format's reserved bits as the mask. -/
theorem exists_matchRow (i : Instr) : ∃ row ∈ matchRows,
    row.matchWord = (i.opcode ++ 0#24 : BitVec 32) ∧
      row.mask = 0xFF000000 ||| reservedBits i.format := by
  have h : matchRows.any (fun row => row.matchWord == (i.opcode ++ 0#24 : BitVec 32) &&
      row.mask == 0xFF000000 ||| reservedBits i.format) = true := by
    cases i <;> (dsimp only [Instr.opcode, Instr.format]; decide)
  simpa using h

/-- R72: a command's word is selected by its row. -/
theorem exists_matchRow_selects_encode (i : Instr) :
    ∃ row ∈ matchRows, encode i &&& row.mask = row.matchWord := by
  obtain ⟨row, hrow, hmatch, hmask⟩ := exists_matchRow i
  obtain ⟨-, hres⟩ := encodingShape i
  refine ⟨row, hrow, ?_⟩
  have hopc : encode i &&& 0xFF000000 = (i.opcode ++ 0#24 : BitVec 32) := by
    have hm : (0xFF000000 : Word) = (BitVec.allOnes 8 ++ 0#24 : BitVec 32) := rfl
    rw [hm, encode, Laws.EncodingShape.and_append, BitVec.and_allOnes, BitVec.and_zero]
  rw [hmask, hmatch, BitVec.and_or_distrib_left, hres, hopc]
  exact BitVec.or_zero

/-- R78: a word that a row selects decodes: the row is its opcode's, and its reserved bits are 0. -/
theorem exists_decode_of_selected {row : MatchRow} (hrow : row ∈ matchRows) {cmd : Word}
    (h : cmd &&& row.mask = row.matchWord) : ∃ i, decode cmd = .ok i := by
  obtain ⟨f, i, hf, hres⟩ := rowOf_matchRow hrow cmd
  refine ⟨i, decode_eq_ok_iff.mpr ⟨f, ?_, ?_⟩⟩
  · rw [opcOf_eq_of_selected hrow h, hf]
  · rw [hres, ← BitVec.and_assoc, h, matchWord_operand_eq_zero row hrow]

/-- R78: a word that decodes is selected by its command's row. -/
theorem exists_selected_of_decode {cmd : Word} {i : Instr} (h : decode cmd = .ok i) :
    ∃ row ∈ matchRows, cmd &&& row.mask = row.matchWord := by
  rw [← encode_of_decode h]
  exact exists_matchRow_selects_encode i

/-! ### The obligations -/

/-- Settles O1: a command's word carries its opcode and no reserved bit, and the row of that opcode reads
the operands back. -/
theorem decodeOfEncode : Obligations.DecodeOfEncode := decode_encode

/-- Settles O2: the word is its opcode above its operand field, and the fields are the whole of that. -/
theorem encodeOfDecode : Obligations.EncodeOfDecode := fun _ _ => encode_of_decode

/-- Settles O3, through the word of the decoded command in one direction and through the row of the
word's opcode in the other. -/
theorem decodeIffSelected : Obligations.DecodeIffSelected := fun _ =>
  ⟨fun ⟨_, h⟩ => exists_selected_of_decode h, fun ⟨_, hrow, h⟩ => exists_decode_of_selected hrow h⟩

/-- Settles O4: both rows have the word's opcode. -/
theorem noTwoRowsSelectOneWord : Obligations.NoTwoRowsSelectOneWord := by
  intro cmd a b ha hb hsa hsb
  exact MatchRow.eq_of_opcode ha hb
    ((opcOf_eq_of_selected ha hsa).symm.trans (opcOf_eq_of_selected hb hsb))

/-- Settles O6: a word that decoded would be selected by the one row of its opcode, which leaves it no
reserved bit. -/
theorem illegalWordsRaiseIllegal : Obligations.IllegalWordsRaiseIllegal := by
  intro cmd s hill
  cases hd : decode cmd with
  | error e => exact runCommand_of_illegal hd s
  | ok i =>
    exfalso
    obtain ⟨row, hrow, hsel⟩ := exists_selected_of_decode hd
    have hopc := opcOf_eq_of_selected hrow hsel
    rcases hill with hnone | ⟨row', hrow', hopc', hres⟩
    · exact hnone row hrow hopc.symm
    · cases MatchRow.eq_of_opcode hrow' hrow (hopc'.trans hopc)
      exact hres (by rw [hsel, matchWord_operand_eq_zero row hrow])

/-- Settles O5: each of the words is the word of its command. -/
theorem specWordsDecode : Obligations.SpecWordsDecode :=
  ⟨decode_encode .nop, decode_encode .stat, decode_encode (.hashAbsorb 0x64),
    decode_encode (.hashRdacc 6), decode_encode (.fhcDec 0x81 0x85),
    decode_encode (.fhcEncText 0xFFFF), decode_encode (.xmKey 2 0x03), decode_encode (.xmXor 0xFF)⟩

end Sys2Proof
end

section

/-! ## The obligations of spec/40_core_control.md -/

namespace Sys2Proof.Machine

/-- R100: NOP is completed with (OK, 0) and updates nothing. -/
theorem exec_nop (s : State) : exec .nop s = .next (s.complete .ok 0) := rfl

/-- Settles O7: the step is `runCommand` of the word, and `runCommand` goes by what the word decodes to. -/
theorem stepRunsDecodedCommand : Obligations.StepRunsDecodedCommand := by
  intro s cmd rest h
  have hstep := step_command h
  refine ⟨hstep, fun i hi => hstep.trans (runCommand_of_decode hi _), fun hno => ?_⟩
  cases hd : decode cmd with
  | ok i => exact absurd hd (hno i)
  | error e => exact hstep.trans (runCommand_of_illegal hd _)

/-- Settles O19: completing with OK only adds the response, and NOP's row has format N, which reserves
the whole operand field. -/
theorem nopAnswersOnly : Obligations.NopAnswersOnly :=
  ⟨fun s => (exec_nop s).trans (congrArg _ (s.complete_ok 0)), rfl,
    raisesIllegal_of_row 0x00 .N 0xFFFFFF (fun _ => ⟨.nop, rfl⟩) rfl⟩

end Sys2Proof.Machine
end

section

/-! ## The padded message and the final pushes -/

namespace Sys2Proof.Machine

/-! ### The padding (R123) -/

theorem lengthBytes_length (l : BitVec 64) : (lengthBytes l).length = 8 := rfl

/-- R123: the eight bytes are the length's digits to the base 256, the highest first. -/
theorem lengthBytes_foldl (l : BitVec 64) :
    (lengthBytes l).foldl (fun n b => 256 * n + b.toNat) 0 = l.toNat := by
  have hl := l.isLt
  simp only [lengthBytes, List.foldl_cons, List.foldl_nil, BitVec.extractLsb'_toNat,
    Nat.shiftRight_eq_div_pow]
  omega

/-- R123: the zeros bring the message and its 0x80 to 56 mod 64. -/
theorem padZeros_mod (n : Nat) : (n + 1 + padZeros n) % 64 = 56 := by
  unfold padZeros; omega

/-- R123: fewer zeros do not. -/
theorem padZeros_least {n y : Nat} (hy : y < padZeros n) : (n + 1 + y) % 64 ≠ 56 := by
  unfold padZeros at hy; omega

theorem padZeros_congr {m n : Nat} (h : m % 64 = n % 64) : padZeros m = padZeros n := by
  rw [padZeros, padZeros, h]

theorem sha1Padding_length (n : Nat) (l : BitVec 64) :
    (sha1Padding n l).length = padZeros n + 9 := by
  simp [sha1Padding, lengthBytes_length]

theorem sha1Padding_congr {m n : Nat} (h : m % 64 = n % 64) (l : BitVec 64) :
    sha1Padding m l = sha1Padding n l := by
  rw [sha1Padding, sha1Padding, padZeros_congr h]

theorem sha1Padded_length_mod (m : List Byte) : (sha1Padded m).length % 64 = 0 := by
  have := padZeros_mod m.length
  rw [sha1Padded, List.length_append, sha1Padding_length]
  omega

/-! ### Pushes and the count -/

/-- `s` with `n` as its count of message bytes. -/
def State.withCount (s : State) (n : BitVec 61) : State := { s with mbytes := n }

@[simp] theorem State.withCount_h (s : State) (n : BitVec 61) : (s.withCount n).h = s.h := rfl

/-- R130: a push without a count does not look at the count. -/
theorem State.pushAll_false_withCount (bs : List Byte) (s : State) (n : BitVec 61) :
    (s.withCount n).pushAll bs false = (s.pushAll bs false).withCount n := by
  induction bs generalizing s with
  | nil => rfl
  | cons b bs ih => exact ih (s.push b false)

/-- R130: counted pushes differ from uncounted ones in the count only. -/
theorem State.pushAll_true_eq_withCount (bs : List Byte) (s : State) :
    s.pushAll bs true = (s.pushAll bs false).withCount (s.pushAll bs true).mbytes := by
  induction bs generalizing s with
  | nil => rfl
  | cons b bs ih =>
    have hpush : s.push b true = (s.push b false).withCount (s.mbytes + 1) := rfl
    rw [State.pushAll_cons, ih, hpush, State.pushAll_false_withCount]
    rfl

/-- R130: counted pushes and then uncounted ones are one sequence of pushes, apart from the count. -/
theorem State.pushAll_true_pushAll_false (as bs : List Byte) (s : State) :
    (s.pushAll as true).pushAll bs false =
      (s.pushAll (as ++ bs) false).withCount (s.pushAll as true).mbytes := by
  rw [State.pushAll_true_eq_withCount, State.pushAll_false_withCount, ← State.pushAll_append,
    ← State.pushAll_true_eq_withCount]

/-! ### HASH_FINAL's pushes as one sequence (R136) -/

/-- R136: what HASH_FINAL pushes in state `s`: the GUID, 0x80, the zeros and the bit length. -/
def State.tailBytes (s : State) : List Byte :=
  guid ++ sha1Padding (s.blen.toNat + 36) (BitVec.ofNat 64 (8 * (s.mbytes.toNat + 36)))

theorem guid_length : guid.length = 36 := rfl

/-- R131: the 64-bit length does not overflow, as the 61-bit count does not. -/
theorem State.bitLength_eq (s : State) : s.bitLength = BitVec.ofNat 64 (8 * s.mbytes.toNat) := by
  apply BitVec.eq_of_toNat_eq
  simp [State.bitLength, BitVec.toNat_mul]

theorem State.bitLength_guid (s : State) :
    (s.pushAll guid true).bitLength = BitVec.ofNat 64 (8 * (s.mbytes.toNat + 36)) := by
  apply BitVec.eq_of_toNat_eq
  rw [State.bitLength_eq, State.pushAll_mbytes, if_pos rfl, guid_length, BitVec.toNat_ofNat,
    BitVec.toNat_ofNat, BitVec.toNat_add, BitVec.toNat_ofNat]
  omega

/-- R136: after the GUID and 0x80, the loop pushes R123's count of zeros. -/
theorem State.padCount_guid (s : State) :
    (56 - ((s.pushAll guid true).push 0x80 false).blen).toNat = padZeros (s.blen.toNat + 36) := by
  have e1 : (1 : BitVec 6).toNat = 1 := rfl
  have e56 : (56 : BitVec 6).toNat = 56 := rfl
  rw [State.push_blen, State.pushAll_blen, guid_length, BitVec.toNat_sub, BitVec.toNat_add,
    BitVec.toNat_add, BitVec.toNat_ofNat, e1, e56, padZeros]
  omega

/-- R136: HASH_FINAL's pushes are those of the tail, apart from the count. -/
theorem State.absorbTail_eq_withCount (s : State) :
    s.absorbTail = (s.pushAll s.tailBytes false).withCount (s.pushAll guid true).mbytes := by
  rw [State.absorbTail, State.padTo56_64, State.padCount_guid, State.bitLength_guid,
    ← State.pushAll_append, ← State.pushAll_cons]
  exact State.pushAll_true_pushAll_false guid _ s

theorem State.finalized_h (s : State) : s.finalized.h = (s.pushAll s.tailBytes false).h := by
  rw [State.finalized]
  dsimp only
  rw [State.absorbTail_eq_withCount, State.withCount_h]

/-- R136: one block when the GUID and the padding fit in the current one, else two. -/
theorem State.pending_tailBytes_length (s : State) :
    (s.pending ++ s.tailBytes).length = 64 * (if s.blen.toNat ≤ 19 then 1 else 2) := by
  have hb := s.blen.isLt
  rw [List.length_append, State.pending_length, State.tailBytes, List.length_append, guid_length,
    sha1Padding_length, padZeros]
  split <;> omega

/-- R136: HASH_FINAL changes the hasher's elements and nothing else. -/
theorem State.finalized_eq_with (s : State) :
    s.finalized = { s with
      h := s.finalized.h, buf := s.finalized.buf, blen := s.finalized.blen,
      mbytes := s.finalized.mbytes, hst := s.finalized.hst } := by
  have hkey := s.finalized_key
  have hkeyv := s.finalized_keyv
  have hphase := s.finalized_phase
  have herr := s.finalized_errlog
  have hin := s.finalized_inputs
  have hresp := s.finalized_responses
  generalize s.finalized = t at *
  cases t
  cases hkey; cases hkeyv; cases hphase; cases herr; cases hin; cases hresp
  rfl

/-- R130, R141: a key absorbed from HASH_INIT on and the tail of HASH_FINAL come to `SHA1(K ++ GUID)`. -/
theorem State.started_finalized_h {k : List Byte} (hk : k.length < 2 ^ 61) (s : State) :
    (s.started.pushAll k true).finalized.h = sha1 (k ++ guid) := by
  have htail : k ++ (s.started.pushAll k true).tailBytes = sha1Padded (k ++ guid) := by
    rw [State.tailBytes, State.started_pushAll_blen, State.started_pushAll_mbytes hk, sha1Padded,
      List.length_append, guid_length, List.append_assoc,
      sha1Padding_congr (show (k.length % 64 + 36) % 64 = (k.length + 36) % 64 by omega)]
  rw [State.finalized_h, State.pushAll_true_pushAll_false, State.withCount_h, htail]
  exact (State.pushAll_hash _ _ _).1

end Sys2Proof.Machine
end

section

/-! ## Base64 and the accept value -/

namespace Sys2Proof.Machine

/-! ### The alphabet (R137) -/

theorem base64Char_toNat_upper {v : BitVec 6} (h : v.toNat ≤ 25) :
    (base64Char v).toNat = 0x41 + v.toNat := by
  rw [base64Char, if_pos h, BitVec.toNat_ofNat]
  omega

theorem base64Char_toNat_lower {v : BitVec 6} (h : 26 ≤ v.toNat) (h' : v.toNat ≤ 51) :
    (base64Char v).toNat = 0x61 + (v.toNat - 26) := by
  rw [base64Char, if_neg (by omega), if_pos h', BitVec.toNat_ofNat]
  omega

theorem base64Char_toNat_digit {v : BitVec 6} (h : 52 ≤ v.toNat) (h' : v.toNat ≤ 61) :
    (base64Char v).toNat = 0x30 + (v.toNat - 52) := by
  rw [base64Char, if_neg (by omega), if_neg (by omega), if_pos h', BitVec.toNat_ofNat]
  omega

theorem base64Char_plus {v : BitVec 6} (h : v.toNat = 62) : base64Char v = 0x2B := by
  simp [base64Char, h]

theorem base64Char_slash {v : BitVec 6} (h : v.toNat = 63) : base64Char v = 0x2F := by
  simp [base64Char, h]

/-- R137: the pad is no character of the alphabet. -/
theorem base64Char_ne_pad : ∀ v : BitVec 6, base64Char v ≠ 0x3D := by
  decide

/-! ### Groups of three bytes (R138) -/

theorem toNat_append_eq_add {n m : Nat} (x : BitVec n) (y : BitVec m) :
    (x ++ y).toNat = 2 ^ m * x.toNat + y.toNat := by
  rw [BitVec.toNat_append, ← Nat.shiftLeft_add_eq_or_of_lt y.isLt, Nat.shiftLeft_eq, Nat.mul_comm]

/-- R138: the characters of the group `{a, b, c}`. -/
def sextets (a b c : Byte) : List Byte :=
  let v : BitVec 24 := a ++ b ++ c
  [base64Char (v.extractLsb' 18 6), base64Char (v.extractLsb' 12 6),
    base64Char (v.extractLsb' 6 6), base64Char (v.extractLsb' 0 6)]

theorem base64_cons3 (a b c : Byte) (rest : List Byte) :
    base64 (a :: b :: c :: rest) = sextets a b c ++ base64 rest := by
  rw [base64]; rfl

theorem base64_pair (a b : Byte) :
    base64 [a, b] = (sextets a b 0).take 3 ++ [base64Pad] := by
  rw [base64]; rfl

/-- R138: character `j` of a group is that of its value's 6-bit part `j`, the highest first. -/
theorem sextets_getElem? (a b c : Byte) {j : Nat} (hj : j < 4) :
    (sextets a b c)[j]? = some (base64Char (BitVec.ofNat 6
      ((65536 * a.toNat + 256 * b.toNat + c.toNat) / 64 ^ (3 - j) % 64))) := by
  have hv : (a ++ b ++ c : BitVec 24).toNat = 65536 * a.toNat + 256 * b.toNat + c.toNat := by
    rw [toNat_append_eq_add, toNat_append_eq_add]
    omega
  have hpart (start : Nat) : (a ++ b ++ c : BitVec 24).extractLsb' start 6 =
      BitVec.ofNat 6 ((65536 * a.toNat + 256 * b.toNat + c.toNat) / 2 ^ start % 64) := by
    apply BitVec.eq_of_toNat_eq
    rw [BitVec.extractLsb'_toNat, hv, Nat.shiftRight_eq_div_pow, BitVec.toNat_ofNat, Nat.mod_mod]
  simp only [sextets, hpart]
  interval_cases j <;> rfl

/-- R138: the groups are independent: past `g` of them stand the characters of the bytes past `3 * g`. -/
theorem base64_drop (g : Nat) {bs : List Byte} (h : 3 * g ≤ bs.length) :
    (base64 bs).drop (4 * g) = base64 (bs.drop (3 * g)) := by
  induction g generalizing bs with
  | zero => rfl
  | succ g ih =>
    match bs, h with
    | a :: b :: c :: rest, h =>
      rw [base64_cons3, Nat.mul_succ, Nat.mul_succ, Nat.add_comm, ← List.drop_drop]
      exact ih (by simp at h; omega)

theorem base64_length (bs : List Byte) : (base64 bs).length = 4 * ((bs.length + 2) / 3) := by
  induction bs using base64.induct with
  | case1 a b c rest ih =>
    rw [base64_cons3, List.length_append, ih]
    simp only [sextets, List.length_cons, List.length_nil]
    omega
  | case2 a b => simp [base64]
  | case3 a => simp [base64]
  | case4 => simp [base64]

/-- R138: the characters of a whole group of three bytes. -/
theorem base64_getElem?_group {bs : List Byte} {g j : Nat} (hg : 3 * g + 3 ≤ bs.length)
    (hj : j < 4) : (base64 bs)[4 * g + j]? = some (base64Char (BitVec.ofNat 6
      ((65536 * (bs.getD (3 * g) 0).toNat + 256 * (bs.getD (3 * g + 1) 0).toNat +
        (bs.getD (3 * g + 2) 0).toNat) / 64 ^ (3 - j) % 64))) := by
  rw [← List.getElem?_drop, base64_drop g (by omega),
    List.drop_eq_getElem_cons (by omega), List.drop_eq_getElem_cons (by omega),
    List.drop_eq_getElem_cons (by omega), base64_cons3,
    List.getElem?_append_left (by simpa [sextets] using hj), sextets_getElem? _ _ _ hj,
    List.getD_eq_getElem _ _ (by omega), List.getD_eq_getElem _ _ (by omega),
    List.getD_eq_getElem _ _ (by omega)]

/-! ### The accept value's 28 characters -/

theorem digestBytes_length (c : Chain) : (digestBytes c).length = 20 := rfl

theorem acceptChars_length (c : Chain) : (acceptChars c).length = 28 := by
  rw [acceptChars, base64_length, digestBytes_length]

/-- R138: the last group, of two bytes and the zero fill. -/
theorem acceptChars_drop (c : Chain) :
    (acceptChars c).drop 24 =
      (sextets ((digestBytes c).getD 18 0) ((digestBytes c).getD 19 0) 0).take 3 ++ [base64Pad] := by
  rw [← base64_pair]
  exact base64_drop 6 (by rw [digestBytes_length]; decide)

theorem acceptChars_pad (c : Chain) : (acceptChars c)[27]? = some 0x3D := by
  have h : (acceptChars c)[24 + 3]? = ((acceptChars c).drop 24)[3]? := List.getElem?_drop.symm
  rw [acceptChars_drop] at h
  exact h

theorem acceptChars_getElem?_last (c : Chain) {j : Nat} (hj : j < 3) :
    (acceptChars c)[24 + j]? = some (base64Char (BitVec.ofNat 6
      ((65536 * ((digestBytes c).getD 18 0).toNat + 256 * ((digestBytes c).getD 19 0).toNat) /
        64 ^ (3 - j) % 64))) := by
  rw [← List.getElem?_drop, acceptChars_drop, List.getElem?_append_left (by simpa [sextets] using hj),
    List.getElem?_take_of_lt hj, sextets_getElem? _ _ _ (by omega)]
  rfl

/-- R138: all characters but the last are of the alphabet. -/
theorem acceptChars_getElem?_alphabet (c : Chain) {n : Nat} (hn : n < 27) :
    ∃ v, (acceptChars c)[n]? = some (base64Char v) := by
  by_cases h : n < 24
  · have hg := base64_getElem?_group (bs := digestBytes c) (g := n / 4) (j := n % 4)
      (by rw [digestBytes_length]; omega) (by omega)
    rw [Nat.div_add_mod] at hg
    exact ⟨_, hg⟩
  · have hl := acceptChars_getElem?_last c (j := n - 24) (by omega)
    rw [Nat.add_sub_cancel' (by omega)] at hl
    exact ⟨_, hl⟩

/-- R140: every byte of the accept value is a character of the alphabet or the pad. -/
theorem eq_pad_or_base64Char_of_mem_acceptChars {c : Chain} {b : Byte} (h : b ∈ acceptChars c) :
    b = 0x3D ∨ ∃ v, b = base64Char v := by
  obtain ⟨n, hn⟩ := List.getElem?_of_mem h
  have hlen : n < 28 := acceptChars_length c ▸ (List.getElem?_eq_some_iff.mp hn).1
  by_cases hlast : n = 27
  · subst hlast
    exact .inl (Option.some.inj (hn.symm.trans (acceptChars_pad c)))
  · obtain ⟨v, hv⟩ := acceptChars_getElem?_alphabet c (n := n) (by omega)
    exact .inr ⟨v, Option.some.inj (hn.symm.trans hv)⟩

end Sys2Proof.Machine
end

section

/-! ## The hasher's readouts, and the accept value read out -/

namespace Sys2Proof.Machine

/-! ### One readout (R139, R140) -/

/-- R53: a packed word's bytes, most significant first. -/
theorem wordBytes_pack4 (a b c d : Byte) : wordBytes (pack4 a b c d) = [a, b, c, d] := by
  have ha : (pack4 a b c d).extractLsb' 24 8 = a := by
    rw [pack4]
    iterate 3 rw [BitVec.extractLsb'_append_eq_of_le (by decide)]
    exact BitVec.extractLsb'_eq_self
  have hb : (pack4 a b c d).extractLsb' 16 8 = b := by
    rw [pack4]
    iterate 2 rw [BitVec.extractLsb'_append_eq_of_le (by decide)]
    exact BitVec.extractLsb'_append_eq_right
  have hc : (pack4 a b c d).extractLsb' 8 8 = c := by
    rw [pack4, BitVec.extractLsb'_append_eq_of_le (by decide)]
    exact BitVec.extractLsb'_append_eq_right
  have hd : (pack4 a b c d).extractLsb' 0 8 = d := BitVec.extractLsb'_append_eq_right
  rw [wordBytes, ha, hb, hc, hd]

/-- R140: the bytes of a group's word are the group's characters. -/
theorem wordBytes_acceptGroup {chars : List Byte} {idx : BitVec 3}
    (h : 4 * idx.toNat + 4 ≤ chars.length) :
    wordBytes (acceptGroup chars idx) = (chars.drop (4 * idx.toNat)).take 4 := by
  rw [acceptGroup, wordBytes_pack4, List.getD_eq_getElem _ _ (by omega),
    List.getD_eq_getElem _ _ (by omega), List.getD_eq_getElem _ _ (by omega),
    List.getD_eq_getElem _ _ (by omega), List.drop_eq_getElem_cons (by omega),
    List.drop_eq_getElem_cons (by omega), List.drop_eq_getElem_cons (by omega),
    List.drop_eq_getElem_cons (by omega)]
  rfl

/-- R140: the low byte of group 6 is the pad. -/
theorem acceptGroup_six_lowByte (c : Chain) :
    (acceptGroup (acceptChars c) 6).extractLsb' 0 8 = 0x3D := by
  have hlow : (acceptGroup (acceptChars c) 6).extractLsb' 0 8 = (acceptChars c).getD 27 0 :=
    BitVec.extractLsb'_append_eq_right
  rw [hlow, List.getD_eq_getElem?_getD, acceptChars_pad]
  rfl

/-- R129, R139: an index within range reads its chaining word, whose bytes are four of the digest. -/
theorem Chain.word_of_le_four (c : Chain) {idx : BitVec 3} (h : idx.toNat ≤ 4) :
    some (c.word idx) = [c.h0, c.h1, c.h2, c.h3, c.h4][idx.toNat]? ∧
      wordBytes (c.word idx) = ((digestBytes c).drop (4 * idx.toNat)).take 4 := by
  have hcases : ∀ i : BitVec 3, i.toNat ≤ 4 → i = 0 ∨ i = 1 ∨ i = 2 ∨ i = 3 ∨ i = 4 := by decide
  rcases hcases idx h with rfl | rfl | rfl | rfl | rfl <;> exact ⟨rfl, rfl⟩

/-! ### All seven groups -/

theorem take_four_append_drop (n : Nat) (bs : List Byte) :
    (bs.drop n).take 4 ++ bs.drop (n + 4) = bs.drop n := by
  rw [← List.drop_drop, List.take_append_drop]

/-- R141: the seven groups are the accept value's 28 bytes in order. -/
theorem flatMap_acceptGroup {chars : List Byte} (h : chars.length = 28) :
    [0#3, 1, 2, 3, 4, 5, 6].flatMap (fun idx => wordBytes (acceptGroup chars idx)) = chars := by
  have hgroup : ∀ idx ∈ [0#3, 1, 2, 3, 4, 5, 6],
      wordBytes (acceptGroup chars idx) = (chars.drop (4 * idx.toNat)).take 4 := by
    intro idx hidx
    have hle : ∀ i ∈ [0#3, 1, 2, 3, 4, 5, 6], i.toNat ≤ 6 := by decide
    exact wordBytes_acceptGroup (by have := hle idx hidx; omega)
  have hlast : (chars.drop 24).take 4 = chars.drop 24 := List.take_of_length_le (by simp [h])
  rw [List.flatMap_congr hgroup]
  change (chars.drop 0).take 4 ++ ((chars.drop 4).take 4 ++ ((chars.drop 8).take 4 ++
    ((chars.drop 12).take 4 ++ ((chars.drop 16).take 4 ++ ((chars.drop 20).take 4 ++
      ((chars.drop 24).take 4 ++ [])))))) = chars
  rw [List.append_nil, hlast]
  iterate 6 rw [take_four_append_drop]
  exact List.drop_zero

/-- R140: in DONE a sequence of HASH_RDACCs within range answers the group of each. -/
theorem runFor_hashRdacc {idxs : List (BitVec 3)} (hok : ∀ idx ∈ idxs, acceptIndexOk idx = true)
    {s : State} {rest : List Input} (hq : s.inputs = asInputs (idxs.map .hashRdacc) ++ rest)
    (hst : s.hst = .done) :
    runFor idxs.length s = .next (s.withPorts rest
      (s.responses ++ idxs.map fun idx => ⟨.ok, acceptGroup (acceptChars s.h) idx⟩)) := by
  induction idxs generalizing s with
  | nil =>
    obtain rfl : s.inputs = rest := hq
    simp [runFor_zero, State.withPorts]
  | cons idx idxs ih =>
    obtain ⟨hidx, hidxs⟩ := List.forall_mem_cons.mp hok
    have hstep : step s = .next (s.withPorts (asInputs (idxs.map .hashRdacc) ++ rest)
        (s.responses ++ [⟨.ok, acceptGroup (acceptChars s.h) idx⟩])) :=
      (step_encode hq).trans (exec_hashRdacc_of_done hidx hst)
    rw [List.length_cons, runFor_succ hstep, ih hidxs (s := s.withPorts _ _) rfl hst]
    simp [State.withPorts]

/-- R136: HASH_FINAL's digest does not look at the ports. -/
theorem State.withPorts_finalized_h (s : State) (q : List Input) (rs : List Response) :
    (s.withPorts q rs).finalized.h = s.finalized.h := by
  have htail : (s.withPorts q rs).tailBytes = s.tailBytes := by
    simp only [State.tailBytes, State.withPorts]
  rw [State.finalized_h, State.finalized_h, htail, State.pushAll_withPorts, State.withPorts]

/-- R136: in ABSORB the step of a HASH_FINAL finishes the digest and answers (OK, 0). -/
theorem step_hashFinal {s : State} (h : s.hst = .absorb) (rest : List Input) (rs : List Response) :
    step (s.withPorts (.command (encode .hashFinal) :: rest) rs) =
      .next ((s.withPorts rest rs).finalized.complete .ok 0) :=
  (step_encode rfl).trans (exec_hashFinal_of_absorb (s := s.withPorts rest rs) h)

/-- R141: HASH_INIT, the key's bytes and HASH_FINAL leave the digest of `K ++ GUID`, all answered
(OK, 0). -/
theorem runFor_hashAccept {k : List Byte} {s : State} {rest : List Input}
    (hk : k.length + 36 ≤ Config.mbytesMax) (hq : s.inputs = asInputs (hashAccept k) ++ rest) :
    ∃ t, runFor (k.length + 2) s = .next t ∧ t.hst = .done ∧ t.h = sha1 (k ++ guid) ∧
      t.inputs = rest ∧ t.responses = s.responses ++ List.replicate (k.length + 2) ⟨.ok, 0⟩ := by
  have hq' : s.inputs =
      asInputs (.hashInit :: hashKey k) ++ (.command (encode .hashFinal) :: rest) := by
    rw [hq]
    simp [asInputs, hashAccept]
  have hkey := runFor_hashInit_hashKey hk hq'
  have hfinal := step_hashFinal (State.pushAll_frame k true s.started).hst rest
    (s.responses ++ List.replicate (k.length + 1) ⟨.ok, 0⟩)
  refine ⟨_, (runFor_add (k.length + 1) 1 hkey).trans (runFor_succ hfinal 0), ?_, ?_, ?_, ?_⟩
  · rw [State.complete_hst, State.finalized_hst]
  · rw [State.complete_h, State.withPorts_finalized_h]
    exact State.started_finalized_h (by simp only [Config.mbytesMax] at hk; omega) s
  · rw [State.complete_inputs, State.finalized_inputs, State.withPorts]
  · rw [State.complete_responses, State.finalized_responses, State.withPorts,
      List.replicate_succ' (n := k.length + 1), ← List.append_assoc]

end Sys2Proof.Machine
end

section

/-! ## The obligations of spec/41_sha1_hasher.md -/

namespace Sys2Proof.Machine

/-! ### What one command answers -/

/-- R102: two accounts of one command's answer agree in HST and in the status. -/
theorem hst_and_status_unique {i : Instr} {s t u : State} {r : Response} {st : Status} {w : Word}
    (ht : exec i s = .next t) (hr : t.responses = s.responses ++ [r])
    (hu : exec i s = .next (u.complete st w)) (hp : u.responses = s.responses) :
    t.hst = u.hst ∧ r.status = st := by
  obtain rfl : t = u.complete st w := Host.Outcome.next.inj (ht.symm.trans hu)
  rw [State.complete_responses, hp] at hr
  obtain rfl := List.singleton_inj.mp (List.append_cancel_left hr)
  exact ⟨rfl, rfl⟩

/-- R133: only HASH_INIT and HASH_FINAL move HST. -/
theorem State.Updated.hst {s u : State} {i : Instr} (h : s.Updated i u) (hinit : i ≠ .hashInit)
    (hfinal : i ≠ .hashFinal) : u.hst = s.hst := by
  cases h with
  | init => exact absurd rfl hinit
  | final => exact absurd rfl hfinal
  | _ => rfl

/-- R133: a HASH_ABSORB in ABSORB is taken or overflows. -/
theorem exec_hashAbsorb_status {s : State} (d : Byte) (h : s.hst = .absorb) :
    ∃ (u : State) (st : Status), exec (.hashAbsorb d) s = .next (u.complete st 0) ∧
      u.responses = s.responses ∧ (st = .ok ∨ st = .hashOverflow) := by
  cases hl : s.atLengthLimit with
  | true => exact ⟨s, _, exec_hashAbsorb_of_limit d h hl, rfl, .inr rfl⟩
  | false => exact ⟨_, _, exec_hashAbsorb_of_absorb d h hl, rfl, .inl rfl⟩

/-- R133: a readout's status is E_RANGE for an index out of range, and goes by HST otherwise. -/
theorem exec_readout_status {i : Instr} {n : BitVec 3} (hi : i = .hashRddig n ∨ i = .hashRdacc n)
    (s : State) : ∃ st w, exec i s = .next (s.complete st w) ∧
      ((st = if s.hst = .done then .ok else .hashState) ∨ st = .range) := by
  rcases hi with rfl | rfl
  · cases hok : digestIndexOk n with
    | false => exact ⟨_, _, exec_hashRddig_of_range hok, .inr rfl⟩
    | true =>
      by_cases h : s.hst = .done
      · exact ⟨_, _, exec_hashRddig_of_done hok h, .inl (if_pos h).symm⟩
      · exact ⟨_, _, exec_hashRddig_of_ne hok h, .inl (if_neg h).symm⟩
  · cases hok : acceptIndexOk n with
    | false => exact ⟨_, _, exec_hashRdacc_of_range hok, .inr rfl⟩
    | true =>
      by_cases h : s.hst = .done
      · exact ⟨_, _, exec_hashRdacc_of_done hok h, .inl (if_pos h).symm⟩
      · exact ⟨_, _, exec_hashRdacc_of_ne hok h, .inl (if_neg h).symm⟩

/-! ### The words of the commands with an operand (R71) -/

theorem encode_hashAbsorb_toNat (d : Byte) : (encode (.hashAbsorb d)).toNat = 0x11000000 + d.toNat := by
  rw [encode, Instr.opcode, Instr.operandField, toNat_append_eq_add, toNat_append_eq_add]
  simp

theorem encode_hashRddig_toNat (n : BitVec 3) :
    (encode (.hashRddig n)).toNat = 0x13000000 + n.toNat := by
  rw [encode, Instr.opcode, Instr.operandField, toNat_append_eq_add, toNat_append_eq_add]
  simp

theorem encode_hashRdacc_toNat (n : BitVec 3) :
    (encode (.hashRdacc n)).toNat = 0x14000000 + n.toNat := by
  rw [encode, Instr.opcode, Instr.operandField, toNat_append_eq_add, toNat_append_eq_add]
  simp

/-! ### The obligations -/

/-- Settles O21: HASH_INIT's completion is by definition the answer stated, and its row has format N. -/
theorem hashInitStartsMessage : Obligations.HashInitStartsMessage :=
  ⟨exec_hashInit, rfl, raisesIllegal_of_row 0x10 .N 0xFFFFFF (fun _ => ⟨.hashInit, rfl⟩) rfl⟩

/-- Settles O22: below the limit the state is that of one counted push, case by case of BLEN; the errors
are the other cases of the command. -/
theorem hashAbsorbTakesByte : Obligations.HashAbsorbTakesByte := by
  refine ⟨fun d s hst hm => ?_, fun d s hst => ?_, fun d s hst hm => ?_, encode_hashAbsorb_toNat,
    raisesIllegal_of_row 0x11 .B 0xFFFF00 (fun _ => ⟨.hashAbsorb _, rfl⟩) rfl⟩
  · have hl : s.atLengthLimit = false :=
      State.atLengthLimit_eq_false (by simp only [Config.mbytesMax]; omega)
    refine ⟨s.push d true, exec_hashAbsorb_of_absorb d hst hl, rfl, ?_, fun h63 => ?_, fun h63 => ?_,
      rfl⟩
    · exact BitVec.toNat_add_of_lt (show s.mbytes.toNat + 1 < 2 ^ 61 by omega)
    · have hfull : s.blen = 63 := BitVec.eq_of_toNat_eq h63
      exact ⟨by rw [State.push_blen, hfull]; rfl, by rw [State.push_h, if_pos hfull]; rfl⟩
    · have hne : s.blen ≠ 63 := fun h => h63 (by rw [h]; rfl)
      refine ⟨?_, State.push_h_of_ne d true hne⟩
      have hlt := s.blen.isLt
      rw [State.push_blen]
      exact BitVec.toNat_add_of_lt (show s.blen.toNat + 1 < 2 ^ 6 by omega)
  · rw [exec_hashAbsorb_of_ne d hst, State.complete_error s (by decide)]
  · have hl : s.atLengthLimit = true := decide_eq_true (by simp only [Config.mbytesMax]; omega)
    rw [exec_hashAbsorb_of_limit d hst hl, State.complete_error s (by decide)]

/-- Settles O23: HASH_FINAL's pushes are one sequence, and `pushAll_hash` compresses the pending bytes and
the tail, one block or two. -/
theorem hashFinalFinishesDigest : Obligations.HashFinalFinishesDigest := by
  refine ⟨fun s hst => ?_, fun s hst => ?_, rfl,
    raisesIllegal_of_row 0x12 .N 0xFFFFFF (fun _ => ⟨.hashFinal, rfl⟩) rfl⟩
  · have htail : s.buf.toList.take s.blen.toNat ++ guid ++ sha1Padding (s.blen.toNat + 36)
        (BitVec.ofNat 64 (8 * (s.mbytes.toNat + 36))) = s.pending ++ s.tailBytes :=
      List.append_assoc _ _ _
    refine ⟨s.finalized, exec_hashFinal_of_absorb hst, s.finalized_hst, s.finalized_blen,
      fun hm => ?_, ?_, s.finalized_eq_with⟩
    · rw [State.finalized_mbytes]
      exact BitVec.toNat_add_of_lt (show s.mbytes.toNat + 36 < 2 ^ 61 by omega)
    · rw [htail]
      refine ⟨s.pending_tailBytes_length, ?_⟩
      rw [State.finalized_h, (State.pushAll_hash _ _ _).1, s.pending_tailBytes_length,
        Nat.mul_div_cancel_left _ (by decide)]
  · rw [exec_hashFinal_of_ne hst, State.complete_error s (by decide)]

/-- Settles O24: HST moves only in the updates of HASH_INIT and HASH_FINAL, and each row of the table is
a case of its command. -/
theorem hasherStateMachine : Obligations.HasherStateMachine := by
  refine ⟨fun i s => ?_, State.resetBlock_hst⟩
  obtain ⟨u, st, w, hx, hu, hsame⟩ := exec_answers i s
  have hr : (u.complete st w).responses = s.responses ++ [⟨st, w⟩] :=
    congrArg (· ++ _) hu.ports.2.2
  refine ⟨_, ⟨st, w⟩, hx, hr, fun hne => by rw [hsame hne, State.complete_error s hne], ?init,
    ?final, ?finalRefused, ?absorb, ?absorbRefused, ?read, ?readRefused, hu.hst⟩
  case init =>
    rintro rfl
    exact hst_and_status_unique hx hr (exec_hashInit s) rfl
  case final =>
    rintro rfl hst
    rw [← s.finalized_hst]
    exact hst_and_status_unique hx hr (exec_hashFinal_of_absorb hst) s.finalized_responses
  case finalRefused =>
    rintro rfl hst
    exact hst_and_status_unique hx hr (exec_hashFinal_of_ne hst) rfl
  case absorb =>
    rintro d rfl hst
    obtain ⟨v, st', hv, hp, hst'⟩ := exec_hashAbsorb_status d hst
    rwa [(hst_and_status_unique hx hr hv hp).2]
  case absorbRefused =>
    rintro d rfl hst
    exact (hst_and_status_unique hx hr (exec_hashAbsorb_of_ne d hst) rfl).2
  case read =>
    intro n hi hst
    obtain ⟨st', w', hv, hst'⟩ := exec_readout_status hi s
    rw [if_pos hst] at hst'
    rwa [(hst_and_status_unique hx hr hv rfl).2]
  case readRefused =>
    intro n hi hst
    obtain ⟨st', w', hv, hst'⟩ := exec_readout_status hi s
    rw [if_neg hst] at hst'
    rwa [(hst_and_status_unique hx hr hv rfl).2]

/-- Settles O25: the cases of HASH_RDDIG, with the word of an index up to 4. -/
theorem hashRddigReadsDigest : Obligations.HashRddigReadsDigest := by
  refine ⟨fun idx s => ?_, encode_hashRddig_toNat,
    raisesIllegal_of_row 0x13 .I 0xFFFFF8 (fun _ => ⟨.hashRddig _, rfl⟩) rfl⟩
  split
  · next h =>
    rw [exec_hashRddig_of_range (decide_eq_false (by omega)), State.complete_error s (by decide)]
  · next h =>
    have hok : digestIndexOk idx = true := decide_eq_true (by omega)
    split
    · next hst => rw [exec_hashRddig_of_ne hok hst, State.complete_error s (by decide)]
    · next hst =>
      exact ⟨_, exec_hashRddig_of_done hok (not_not.mp hst), s.h.word_of_le_four (by omega)⟩

/-- Settles O26: the cases of HASH_RDACC, with the bytes of the group's word, all of the accept value. -/
theorem hashRdaccReadsAccept : Obligations.HashRdaccReadsAccept := by
  refine ⟨fun idx s => ?_, encode_hashRdacc_toNat,
    raisesIllegal_of_row 0x14 .I 0xFFFFF8 (fun _ => ⟨.hashRdacc _, rfl⟩) rfl⟩
  split
  · next h =>
    rw [exec_hashRdacc_of_range (decide_eq_false (by omega)), State.complete_error s (by decide)]
  · next h =>
    have hok : acceptIndexOk idx = true := decide_eq_true (by omega)
    split
    · next hst => rw [exec_hashRdacc_of_ne hok hst, State.complete_error s (by decide)]
    · next hst =>
      have hbytes := wordBytes_acceptGroup (chars := acceptChars s.h) (idx := idx)
        (by rw [acceptChars_length]; omega)
      refine ⟨_, exec_hashRdacc_of_done hok (not_not.mp hst), hbytes, fun b hb => ?_, ?_⟩
      · rw [hbytes] at hb
        exact eq_pad_or_base64Char_of_mem_acceptChars (List.mem_of_mem_drop (List.mem_of_mem_take hb))
      · rintro rfl
        exact acceptGroup_six_lowByte s.h

/-- Settles O28: `padZeros` is the least count that fits, and the eight length bytes are digits to
the base 256. -/
theorem paddedMessageShape : Obligations.PaddedMessageShape := by
  intro m hm
  refine ⟨padZeros m.length, lengthBytes (BitVec.ofNat 64 (8 * m.length)), ?_, padZeros_mod _,
    fun y hy => padZeros_least hy, lengthBytes_length _, ?_, sha1Padded_length_mod m⟩
  · simp [sha1Padded, sha1Padding]
  · rw [lengthBytes_foldl, BitVec.toNat_ofNat]
    exact Nat.mod_eq_of_lt (by omega)

/-- Settles O29: the alphabet value by value, then the groups of three bytes, each read at its own place,
and the last group with its zero fill. -/
theorem acceptValueShape : Obligations.AcceptValueShape := by
  refine ⟨fun v => ⟨base64Char_toNat_upper, base64Char_toNat_lower, base64Char_toNat_digit,
    base64Char_plus, base64Char_slash⟩, rfl, fun c => ⟨digestBytes_length c, acceptChars_length c,
    ⟨fun g j hg hj => ?_, fun j hj => acceptChars_getElem?_last c hj⟩, acceptChars_pad c,
    ⟨_, acceptChars_getElem?_last c (j := 2) (by decide), ?_⟩, fun n hn => ?_⟩⟩
  · exact base64_getElem?_group (by rw [digestBytes_length]; omega) hj
  · rw [BitVec.toNat_ofNat]
    omega
  · obtain ⟨v, hv⟩ := acceptChars_getElem?_alphabet c hn
    exact ⟨v, hv, base64Char_ne_pad v⟩

/-- Settles O30: HASH_ACCEPT's commands leave the digest of `K ++ GUID`, and the seven readouts answer
the groups of its accept value. -/
theorem acceptValueLaw : Obligations.AcceptValueLaw := by
  intro k s hk hq
  obtain ⟨t, ht, hdone, hh, hin, hresp⟩ := runFor_hashAccept (rest := asInputs hashRdaccAll)
    (by simp only [Config.mbytesMax]; omega) (hq.trans List.map_append)
  have hread := runFor_hashRdacc (idxs := [0, 1, 2, 3, 4, 5, 6]) (by decide)
    (hin.trans (List.append_nil _).symm) hdone
  refine ⟨_, _, (runFor_add (k.length + 2) 7 ht).trans hread, congrArg (· ++ _) hresp, rfl, ?_, ?_⟩
  · simp
  · rw [List.flatMap_map, hh]
    exact flatMap_acceptGroup (acceptChars_length _)

end Sys2Proof.Machine
end

section

/-! ## The obligations of spec/42_frame_codec.md -/

namespace Sys2Proof.Machine

/-! ### The header bytes (R160, R163, R164) -/

/-- R164: FOLLOW does not wrap: its largest value is 131. -/
theorem headerFollow_toNat (hb1 : Byte) :
    (headerFollow hb1).toNat = 4 * (headerMask hb1).toNat + (headerPlen hb1).toNat := by
  have hmask := (headerMask hb1).isLt
  have hplen := (headerPlen hb1).isLt
  have e4 : (4#8).toNat = 4 := rfl
  simp only [headerFollow, BitVec.toNat_add, BitVec.toNat_mul, BitVec.toNat_setWidth, e4]
  omega

/-- Masking with the low `n` bits reads the `n` low bits. -/
theorem toNat_and_eq_toNat_extractLsb' {w n : Nat} {x m : BitVec w} (hm : m.toNat = 2 ^ n - 1) :
    (x &&& m).toNat = (x.extractLsb' 0 n).toNat := by
  rw [BitVec.toNat_and, hm, Nat.and_two_pow_sub_one_eq_mod, BitVec.extractLsb'_toNat, Nat.shiftRight_zero]

/-- Masking a byte with 0x80 reads its top bit. -/
theorem and_topBit_eq_zero_iff (b : Byte) : b &&& 0x80 = 0 ↔ b.getLsbD 7 = false := by
  have h80 : (0x80 : Byte) = BitVec.twoPow 8 7 := rfl
  rw [h80, BitVec.and_twoPow]
  cases b.getLsbD 7 <;> decide

/-! ### The frame kinds (R162) -/

/-- R162: the opcodes that name a kind. -/
theorem frameKind_isNone_iff : ∀ opn : BitVec 4,
    (frameKind opn).isNone = true ↔ opn ∉ [1#4, 8#4, 9#4, 10#4] := by
  decide

theorem kindValid_frameKind : ∀ opn : BitVec 4,
    kindValid (frameKind opn) = if opn ∈ [1#4, 8#4, 9#4, 10#4] then 1#1 else 0#1 := by
  decide

theorem kindCode_frameKind : ∀ opn : BitVec 4,
    kindCode (frameKind opn) =
      if opn = 1#4 then 1#3 else if opn = 8#4 then 2#3 else if opn = 9#4 then 3#3
        else if opn = 10#4 then 4#3 else 0#3 := by
  decide

/-! ### The fields of the FHC_DEC result word (R165) -/

section Image

variable (hb0 hb1 : Byte)

theorem decodeImage_opn : (decodeImage hb0 hb1).extractLsb' 0 4 = headerOpn hb0 :=
  BitVec.extractLsb'_append_eq_right

theorem decodeImage_rsv : (decodeImage hb0 hb1).extractLsb' 4 3 = headerRsv hb0 := by
  rw [decodeImage, BitVec.extractLsb'_append_eq_of_le (by decide)]
  exact BitVec.extractLsb'_append_eq_right

theorem decodeImage_finb : (decodeImage hb0 hb1).extractLsb' 7 1 = headerFinb hb0 := by
  rw [decodeImage]
  iterate 2 rw [BitVec.extractLsb'_append_eq_of_le (by decide)]
  exact BitVec.extractLsb'_append_eq_right

theorem decodeImage_final : (decodeImage hb0 hb1).extractLsb' 8 1 = headerFinal hb0 := by
  rw [decodeImage]
  iterate 3 rw [BitVec.extractLsb'_append_eq_of_le (by decide)]
  exact BitVec.extractLsb'_append_eq_right

theorem decodeImage_mask : (decodeImage hb0 hb1).extractLsb' 9 1 = headerMask hb1 := by
  rw [decodeImage]
  iterate 4 rw [BitVec.extractLsb'_append_eq_of_le (by decide)]
  exact BitVec.extractLsb'_append_eq_right

theorem decodeImage_plen : (decodeImage hb0 hb1).extractLsb' 10 7 = headerPlen hb1 := by
  rw [decodeImage]
  iterate 5 rw [BitVec.extractLsb'_append_eq_of_le (by decide)]
  exact BitVec.extractLsb'_append_eq_right

theorem decodeImage_opv :
    (decodeImage hb0 hb1).extractLsb' 17 1 = kindValid (frameKind (headerOpn hb0)) := by
  rw [decodeImage]
  iterate 6 rw [BitVec.extractLsb'_append_eq_of_le (by decide)]
  exact BitVec.extractLsb'_append_eq_right

theorem decodeImage_opk :
    (decodeImage hb0 hb1).extractLsb' 18 3 = kindCode (frameKind (headerOpn hb0)) := by
  rw [decodeImage]
  iterate 7 rw [BitVec.extractLsb'_append_eq_of_le (by decide)]
  exact BitVec.extractLsb'_append_eq_right

theorem decodeImage_follow : (decodeImage hb0 hb1).extractLsb' 21 8 = headerFollow hb1 := by
  rw [decodeImage]
  iterate 8 rw [BitVec.extractLsb'_append_eq_of_le (by decide)]
  exact BitVec.extractLsb'_append_eq_right

theorem decodeImage_top : (decodeImage hb0 hb1).extractLsb' 29 3 = 0 := by
  rw [decodeImage]
  iterate 9 rw [BitVec.extractLsb'_append_eq_of_le (by decide)]
  exact BitVec.extractLsb'_eq_self

end Image

/-! ### What the commands answer, case by case (R166, R167, R168) -/

section Cases

variable {hb0 : Byte} {len : BitVec 16}

theorem exec_fhcDec_of_known (h : headerOpn hb0 ∈ [1#4, 8#4, 9#4, 10#4]) (hb1 : Byte) (s : State) :
    exec (.fhcDec hb0 hb1) s = .next (s.answered (decodeImage hb0 hb1)) := by
  have hk : ¬ (frameKind (headerOpn hb0)).isNone = true := fun hn => (frameKind_isNone_iff _).mp hn h
  exact if_neg hk

theorem exec_fhcDec_of_unknown (h : headerOpn hb0 ∉ [1#4, 8#4, 9#4, 10#4]) (hb1 : Byte) (s : State) :
    exec (.fhcDec hb0 hb1) s = .next (s.erred .unknownOpcode (decodeImage hb0 hb1)) := by
  rw [← State.complete_error s (by decide)]
  exact if_pos ((frameKind_isNone_iff _).mpr h)

/-- R171: FHC_DEC answers the image, with status OK for the opcodes that name a kind and no other. -/
theorem exec_fhcDec (hb0 hb1 : Byte) (s : State) :
    ∃ st, exec (.fhcDec hb0 hb1) s = .next (s.complete st (decodeImage hb0 hb1)) ∧
      (st = .ok ↔ headerOpn hb0 ∈ [1#4, 8#4, 9#4, 10#4]) := by
  by_cases h : headerOpn hb0 ∈ [1#4, 8#4, 9#4, 10#4]
  · exact ⟨.ok, exec_fhcDec_of_known h hb1 s, iff_of_true rfl h⟩
  · exact ⟨.unknownOpcode, exec_fhcDec_of_unknown h hb1 s, iff_of_false (by decide) h⟩

theorem exec_fhcEncText_of_le (h : len.toNat ≤ 127) (s : State) :
    exec (.fhcEncText len) s = .next (s.answered (pack2 0x81 (0#1 ++ len.extractLsb' 0 7))) := by
  have hok : textLengthOk len = true := decide_eq_true h
  simp [exec, execFhcEncText, respond, hok, State.complete_ok]

theorem exec_fhcEncText_of_gt (h : len.toNat > 127) (s : State) :
    exec (.fhcEncText len) s = .next (s.erred .length 0) := by
  have hlong : textLengthOk len = false := decide_eq_false (Nat.not_le.mpr h)
  rw [← State.complete_error s (by decide)]
  simp [exec, execFhcEncText, raise, respond, hlong]

theorem exec_fhcEncClose (s : State) : exec .fhcEncClose s = .next (s.answered (pack2 0x88 0x00)) := rfl

end Cases

/-! ### The encoders' header words (R51, R167) -/

theorem pack2_toNat (a b : Byte) : (pack2 a b).toNat = 0x100 * a.toNat + b.toNat := by
  rw [pack2, toNat_append_eq_add, toNat_append_eq_add]
  simp

theorem pack2_hb0 (a b : Byte) : (pack2 a b).extractLsb' 8 8 = a := by
  rw [pack2, BitVec.extractLsb'_append_eq_of_le (by decide)]
  exact BitVec.extractLsb'_append_eq_right

theorem pack2_hb1 (a b : Byte) : (pack2 a b).extractLsb' 0 8 = b :=
  BitVec.extractLsb'_append_eq_right

/-- R167: a length up to 127 fits LEN[6:0]. -/
theorem toNat_lowBits_of_le {len : BitVec 16} (h : len.toNat ≤ 127) :
    (len.extractLsb' 0 7).toNat = len.toNat := by
  rw [BitVec.extractLsb'_toNat, Nat.shiftRight_zero]
  exact Nat.mod_eq_of_lt (by omega)

/-- R164: a header byte 1 with MASK 0 is its length. -/
theorem toNat_zero_append (plen : BitVec 7) : (0#1 ++ plen : Byte).toNat = plen.toNat := by
  rw [toNat_append_eq_add]
  simp

/-- R163, R164, R169: a header of a valid opcode with FINB 1 and MASK 0, in the bytes of a result, is
decoded as not final, of the opcode's kind, unmasked and of its length. -/
theorem exec_fhcDec_unmasked {hb0 : Byte} (hopn : headerOpn hb0 ∈ [1#4, 8#4, 9#4, 10#4])
    (hfinb : headerFinb hb0 = 1) (plen : BitVec 7) (s : State) : ∃ image : Word,
      exec (.fhcDec ((pack2 hb0 (0#1 ++ plen)).extractLsb' 8 8)
        ((pack2 hb0 (0#1 ++ plen)).extractLsb' 0 8)) s = .next (s.answered image) ∧
      image.getLsbD 8 = false ∧ image.getLsbD 7 = true ∧
      image.extractLsb' 18 3 = kindCode (frameKind (headerOpn hb0)) ∧
      image.getLsbD 9 = false ∧ image.extractLsb' 10 7 = plen := by
  have hmask : headerMask (0#1 ++ plen) = 0 := BitVec.extractLsb'_append_eq_left
  rw [pack2_hb0, pack2_hb1]
  refine ⟨_, exec_fhcDec_of_known hopn _ s, ?_, ?_, decodeImage_opk _ _, ?_, ?_⟩
  · rw [BitVec.getLsbD_eq_extractLsb', decodeImage_final, headerFinal, hfinb]
    rfl
  · rw [BitVec.getLsbD_eq_extractLsb', decodeImage_finb, hfinb]
    rfl
  · rw [BitVec.getLsbD_eq_extractLsb', decodeImage_mask, hmask]
    rfl
  · exact (decodeImage_plen _ _).trans BitVec.extractLsb'_append_eq_right

/-! ### The words of the commands with an operand (R71) -/

theorem encode_fhcDec_toNat (hb0 hb1 : Byte) :
    (encode (.fhcDec hb0 hb1)).toNat = 0x20000000 + 0x100 * hb0.toNat + hb1.toNat := by
  rw [encode, Instr.opcode, Instr.operandField, toNat_append_eq_add, toNat_append_eq_add,
    toNat_append_eq_add]
  simp [Nat.add_assoc]

theorem encode_fhcEncText_toNat (len : BitVec 16) :
    (encode (.fhcEncText len)).toNat = 0x21000000 + len.toNat := by
  rw [encode, Instr.opcode, Instr.operandField, toNat_append_eq_add, toNat_append_eq_add]
  simp

/-! ### The obligations -/

/-- Settles O31: the answer goes by the opcode's kind, and each field is read from its own place in the
image. -/
theorem fhcDecAnswersFields : Obligations.FhcDecAnswersFields := by
  refine ⟨fun hb0 hb1 s => ⟨decodeImage hb0 hb1, ?_, decodeImage_opn _ _, decodeImage_rsv _ _,
    decodeImage_finb _ _, decodeImage_final _ _, decodeImage_mask _ _, decodeImage_plen _ _,
    (decodeImage_opv _ _).trans (kindValid_frameKind _),
    (decodeImage_opk _ _).trans (kindCode_frameKind _),
    (congrArg _ (decodeImage_follow _ _)).trans (headerFollow_toNat _), decodeImage_top _ _⟩,
    encode_fhcDec_toNat, raisesIllegal_of_row 0x20 .H 0xFF0000 (fun _ => ⟨.fhcDec _ _, rfl⟩) rfl⟩
  split
  · next h => exact exec_fhcDec_of_known h hb1 s
  · next h => exact exec_fhcDec_of_unknown h hb1 s

/-- Settles O32: the fields are the bits that the masks select, and the status goes by the opcode. -/
theorem fhcDecBitArithmetic : Obligations.FhcDecBitArithmetic := by
  intro hb0 hb1 s
  obtain ⟨st, hx, hst⟩ := exec_fhcDec hb0 hb1 s
  refine ⟨_, ⟨st, decodeImage hb0 hb1⟩, hx, s.complete_responses _ _, ?_, ?_, ?_, ?_⟩
  · have hnot : ∀ b : BitVec 1, (~~~b == 1#1) = true ↔ (b == 1#1) = false := by decide
    rw [and_topBit_eq_zero_iff, BitVec.getLsbD_eq_extractLsb', BitVec.getLsbD_eq_extractLsb',
      decodeImage_final]
    exact hnot _
  · rw [ne_eq, and_topBit_eq_zero_iff, Bool.not_eq_false, BitVec.getLsbD_eq_extractLsb',
      BitVec.getLsbD_eq_extractLsb', decodeImage_mask, headerMask]
  · rw [toNat_and_eq_toNat_extractLsb' (n := 7) rfl, decodeImage_plen, headerPlen]
  · have hmem : ∀ opn : BitVec 4, opn ∈ [1#4, 8#4, 9#4, 10#4] ↔ opn.toNat ∈ [1, 8, 9, 10] := by
      decide
    rw [hst, toNat_and_eq_toNat_extractLsb' (n := 4) rfl]
    exact hmem _

/-- Settles O33: both cases of the command; a length up to 127 is the value of its low seven bits. -/
theorem fhcEncTextEncodesHeader : Obligations.FhcEncTextEncodesHeader := by
  refine ⟨fun len s h => ⟨_, exec_fhcEncText_of_le h s, ?_⟩, fun len s h => exec_fhcEncText_of_gt h s,
    encode_fhcEncText_toNat,
    raisesIllegal_of_row 0x21 .L 0xFF0000 (fun _ => ⟨.fhcEncText _, rfl⟩) rfl⟩
  rw [pack2_toNat, toNat_zero_append, toNat_lowBits_of_le h]
  rfl

/-- Settles O34: FHC_ENC_CLOSE's answer is by definition the one stated, and its row has format N. -/
theorem fhcEncCloseEncodesFrame : Obligations.FhcEncCloseEncodesFrame :=
  ⟨exec_fhcEncClose, rfl, raisesIllegal_of_row 0x22 .N 0xFFFFFF (fun _ => ⟨.fhcEncClose, rfl⟩) rfl⟩

/-- Settles O35: FHC_DEC's answer to a header with FINB 1 and MASK 0, for the header of each encoder. -/
theorem encodedHeaderDecodesNotFinal : Obligations.EncodedHeaderDecodesNotFinal := by
  refine ⟨fun len s h => ?_, fun s => ?_⟩
  · obtain ⟨image, hx, hfinal, hfinb, hopk, hmask, hplen⟩ :=
      exec_fhcDec_unmasked (hb0 := 0x81) (by decide) rfl (len.extractLsb' 0 7) s
    exact ⟨_, image, exec_fhcEncText_of_le h s, hx, hfinal, hfinb, hopk, hmask,
      by rw [hplen, toNat_lowBits_of_le h]⟩
  · obtain ⟨image, hx, hfinal, hfinb, hopk, hmask, hplen⟩ :=
      exec_fhcDec_unmasked (hb0 := 0x88) (by decide) rfl 0 s
    exact ⟨_, image, exec_fhcEncClose s, hx, hfinal, hfinb, hopk, hmask, by rw [hplen]; rfl⟩

end Sys2Proof.Machine
end

section

/-! ## The obligations of spec/43_masker.md -/

namespace Sys2Proof.Machine

/-! ### The words and the result of the XM commands (R71, R194) -/

theorem encode_xmKey_toNat (j : BitVec 2) (d : Byte) :
    (encode (.xmKey j d)).toNat = 0x30000000 + 0x10000 * j.toNat + d.toNat := by
  rw [encode, Instr.opcode, Instr.operandField, toNat_append_eq_add, toNat_append_eq_add,
    toNat_append_eq_add, toNat_append_eq_add]
  simp [Nat.add_assoc, ← Nat.mul_assoc]

theorem encode_xmXor_toNat (d : Byte) : (encode (.xmXor d)).toNat = 0x31000000 + d.toNat := by
  rw [encode, Instr.opcode, Instr.operandField, toNat_append_eq_add, toNat_append_eq_add]
  simp

theorem zext32_eq_setWidth (b : Byte) : zext32 b = b.setWidth 32 := by
  apply BitVec.eq_of_toNat_eq
  rw [zext32, toNat_append_eq_add, BitVec.toNat_setWidth, Nat.mod_eq_of_lt (by omega)]
  simp

/-- R194: XM_XOR's answer when its result is the byte `b`. -/
def byteAnswer (b : Byte) : Response := ⟨.ok, b.setWidth 32⟩

/-- R194: the host reads the byte back from bits [7:0] of the result. -/
theorem byteAnswer_lowByte (b : Byte) : (byteAnswer b).result.extractLsb' 0 8 = b := by
  rw [byteAnswer, ← zext32_eq_setWidth]
  exact BitVec.extractLsb'_append_eq_right

/-! ### The masking law's bytes (R190) -/

/-- R190: the bytes of `p` XORed with the key `k`, the first of them with key byte `phase`. -/
def maskBytes (k : BitVec 2 → Byte) (phase : BitVec 2) (p : List Byte) : List Byte :=
  p.mapIdx fun n b => b ^^^ k (phase + BitVec.ofNat 2 n)

@[simp] theorem maskBytes_nil (k : BitVec 2 → Byte) (phase : BitVec 2) : maskBytes k phase [] = [] := rfl

/-- R194: after one byte the phase is one further. -/
theorem maskBytes_cons (k : BitVec 2 → Byte) (phase : BitVec 2) (b : Byte) (p : List Byte) :
    maskBytes k phase (b :: p) = (b ^^^ k phase) :: maskBytes k (phase + 1) p := by
  simp [maskBytes, List.mapIdx_cons, BitVec.ofNat_add, BitVec.add_assoc, BitVec.add_comm 1#2]

@[simp] theorem maskBytes_length (k : BitVec 2 → Byte) (phase : BitVec 2) (p : List Byte) :
    (maskBytes k phase p).length = p.length := List.length_mapIdx

/-- R191: unmasking is an involution. -/
theorem maskBytes_maskBytes (k : BitVec 2 → Byte) (phase : BitVec 2) (p : List Byte) :
    maskBytes k phase (maskBytes k phase p) = p :=
  List.ext_getElem (by simp) fun n _ _ => by simp [maskBytes]

/-! ### Loading a key (R193) -/

/-- R193: the state once XM_KEY has written the byte of `k` at each index of `order`, before the
responses. -/
def State.loadKeys (s : State) (k : BitVec 2 → Byte) (order : List (BitVec 2)) : State :=
  order.foldl (fun t j => t.loadKey j (k j)) s

theorem State.loadKeys_cons (s : State) (k : BitVec 2 → Byte) (j : BitVec 2) (order : List (BitVec 2)) :
    s.loadKeys k (j :: order) = (s.loadKey j (k j)).loadKeys k order := rfl

theorem State.loadKeys_withPorts (s : State) (k : BitVec 2 → Byte) (order : List (BitVec 2))
    (q : List Input) (rs : List Response) :
    (s.withPorts q rs).loadKeys k order = (s.loadKeys k order).withPorts q rs := by
  induction order generalizing s with
  | nil => rfl
  | cons j order ih => exact ih (s.loadKey j (k j))

theorem State.loadKeys_keyv_getLsbD (s : State) (k : BitVec 2 → Byte) (order : List (BitVec 2))
    (n : BitVec 2) :
    (s.loadKeys k order).keyv.getLsbD n.toNat = (s.keyv.getLsbD n.toNat || decide (n ∈ order)) := by
  induction order generalizing s with
  | nil => simp [State.loadKeys]
  | cons j order ih => rw [State.loadKeys_cons, ih, State.loadKey_keyv_getLsbD]; simp [Bool.or_assoc]

theorem State.loadKeys_keyByte (s : State) (k : BitVec 2 → Byte) (order : List (BitVec 2))
    (n : BitVec 2) : (s.loadKeys k order).keyByte n = if n ∈ order then k n else s.keyByte n := by
  induction order generalizing s with
  | nil => rfl
  | cons j order ih =>
    rw [State.loadKeys_cons, ih, State.loadKey_keyByte]
    by_cases hj : n = j <;> simp [hj]

/-- R193: every key write sets PHASE to 0. -/
theorem State.loadKeys_phase (s : State) (k : BitVec 2 → Byte) {order : List (BitVec 2)}
    (h : order ≠ [] ∨ s.phase = 0) : (s.loadKeys k order).phase = 0 := by
  induction order generalizing s with
  | nil => exact h.resolve_left (not_not_intro rfl)
  | cons j order ih => exact ih (s.loadKey j (k j)) (.inr rfl)

/-- R193: one XM_KEY for each index of `order` writes the bytes and answers (OK, 0) each time. -/
theorem runFor_xmKey {k : BitVec 2 → Byte} (order : List (BitVec 2)) {s : State} {rest : List Input}
    (hq : s.inputs = asInputs (order.map fun j => .xmKey j (k j)) ++ rest) :
    runFor order.length s = .next ((s.loadKeys k order).withPorts rest
      (s.responses ++ List.replicate order.length ⟨.ok, 0⟩)) := by
  induction order generalizing s with
  | nil =>
    obtain rfl : s.inputs = rest := hq
    simp [runFor_zero, State.withPorts, State.loadKeys]
  | cons j order ih =>
    have hstep : step s = .next ((s.loadKey j (k j)).withPorts
        (asInputs (order.map fun j => .xmKey j (k j)) ++ rest) (s.responses ++ [⟨.ok, 0⟩])) :=
      (step_encode hq).trans (exec_xmKey j (k j) _)
    rw [List.length_cons, runFor_succ hstep, ih (s := (s.loadKey j (k j)).withPorts _ _) rfl,
      State.loadKeys_withPorts, State.loadKeys_cons]
    simp [State.withPorts, List.replicate_succ]

/-! ### Masking a payload (R194) -/

/-- R190: all four bytes of the key `k` have been written. -/
structure State.HoldsKey (s : State) (k : BitVec 2 → Byte) : Prop where
  keyv : s.keyv = 0b1111#4
  keyByte : ∀ j, s.keyByte j = k j

/-- R193: the four bytes may be loaded in any order. -/
theorem State.loadKeys_holdsKey (s : State) (k : BitVec 2 → Byte) {order : List (BitVec 2)}
    (h : ∀ j, j ∈ order) : (s.loadKeys k order).HoldsKey k where
  keyv := by
    apply BitVec.eq_of_getLsbD_eq
    intro n hn
    have hones : ∀ j : BitVec 2, (0b1111#4).getLsbD j.toNat = true := by decide
    have hbit := s.loadKeys_keyv_getLsbD k order (BitVec.ofNat 2 n)
    have hone := hones (BitVec.ofNat 2 n)
    rw [BitVec.toNat_ofNat, Nat.mod_eq_of_lt hn] at hbit hone
    rw [hbit, hone, decide_eq_true (h _), Bool.or_true]
  keyByte j := by rw [s.loadKeys_keyByte, if_pos (h j)]

/-- R194: the state with PHASE `n` further, modulo 4. -/
def State.advanced (s : State) (n : BitVec 2) : State := { s with phase := s.phase + n }

theorem State.HoldsKey.advanced {s : State} {k : BitVec 2 → Byte} (h : s.HoldsKey k) (n : BitVec 2) :
    (s.advanced n).HoldsKey k := ⟨h.keyv, h.keyByte⟩

theorem State.advanced_phase_toNat (s : State) :
    (s.advanced 1).phase.toNat = (s.phase.toNat + 1) % 4 := BitVec.toNat_add _ _

/-- R194: with the key loaded, XM_XOR answers its byte XORed with the key byte at PHASE. -/
theorem exec_xmXor_of_holdsKey {s : State} {k : BitVec 2 → Byte} (h : s.HoldsKey k) (d : Byte) :
    exec (.xmXor d) s =
      .next ((s.advanced 1).complete .ok (byteAnswer (d ^^^ k s.phase)).result) := by
  rw [exec_xmXor_of_loaded d h.keyv, h.keyByte, zext32_eq_setWidth]
  rfl

/-- R190: with the key loaded, one XM_XOR for each byte of `p` answers the masked bytes, from the key
byte at PHASE on. -/
theorem runFor_xmBytes {k : BitVec 2 → Byte} (p : List Byte) {s : State} (hk : s.HoldsKey k)
    (rs : List Response) :
    runFor p.length (s.withPorts (asInputs (xmBytes p)) rs) =
      .next ((s.advanced (BitVec.ofNat 2 p.length)).withPorts []
        (rs ++ (maskBytes k s.phase p).map byteAnswer)) := by
  induction p generalizing s rs with
  | nil => simp [runFor_zero, State.withPorts, State.advanced, asInputs, xmBytes]
  | cons b p ih =>
    have hstep : step (s.withPorts (asInputs (xmBytes (b :: p))) rs) =
        .next ((s.advanced 1).withPorts (asInputs (xmBytes p)) (rs ++ [byteAnswer (b ^^^ k s.phase)])) :=
      (step_encode rfl).trans
        (exec_xmXor_of_holdsKey (s := s.withPorts (asInputs (xmBytes p)) rs) ⟨hk.keyv, hk.keyByte⟩ b)
    rw [List.length_cons, runFor_succ hstep, ih (hk.advanced 1), maskBytes_cons]
    simp [State.withPorts, State.advanced, BitVec.ofNat_add, BitVec.add_assoc, BitVec.add_comm]

/-- R190: a key load in any order and then XM_XOR of each byte of a payload. -/
theorem runFor_xmKey_xmBytes {k : BitVec 2 → Byte} {order : List (BitVec 2)} {p : List Byte} {s : State}
    (ho : order.Perm [0, 1, 2, 3])
    (hq : s.inputs = asInputs (order.map (fun j => .xmKey j (k j)) ++ xmBytes p)) :
    ∃ t : State, runFor (4 + p.length) s = .next t ∧ t.HoldsKey k ∧
      t.responses = s.responses ++ List.replicate 4 ⟨.ok, 0⟩ ++ (maskBytes k 0 p).map byteAnswer := by
  have hindices : ∀ j : BitVec 2, j ∈ [0, 1, 2, 3] := by decide
  have hall : ∀ j, j ∈ order := fun j => ho.mem_iff.mpr (hindices j)
  have hlen : order.length = 4 := ho.length_eq
  have hkeyed := s.loadKeys_holdsKey k hall
  have hphase : (s.loadKeys k order).phase = 0 :=
    s.loadKeys_phase k (.inl (List.ne_nil_of_mem (hall 0)))
  have hload := runFor_xmKey order (hq.trans List.map_append)
  have hmask := runFor_xmBytes p hkeyed (s.responses ++ List.replicate order.length ⟨.ok, 0⟩)
  rw [hlen] at hload hmask
  rw [hphase] at hmask
  exact ⟨_, (runFor_add 4 p.length hload).trans hmask, ⟨hkeyed.keyv, hkeyed.keyByte⟩, rfl⟩

/-! ### The obligations -/

/-- Settles O37: `loadKey` writes one byte and sets one bit, and XM_KEY's row has format K. -/
theorem xmKeyLoadsByte : Obligations.XmKeyLoadsByte := by
  refine ⟨fun j d s => ⟨s.loadKey j d, ?_, ?_, fun n hn => ?_, ?_, fun n hn => ?_, rfl, rfl⟩,
    encode_xmKey_toNat, raisesIllegal_of_row 0x30 .K 0xFCFF00 (fun _ => ⟨.xmKey _ _, rfl⟩) rfl⟩
  · rw [exec_xmKey, State.complete_ok]
  · rw [State.loadKey_keyByte, if_pos rfl]
  · rw [State.loadKey_keyByte, if_neg hn]
  · rw [State.loadKey_keyv_getLsbD, decide_eq_true rfl, Bool.or_true]
  · rw [State.loadKey_keyv_getLsbD, decide_eq_false hn, Bool.or_false]

/-- Settles O38: with KEYV complete the state holds its own key bytes as the key; otherwise XM_XOR only
raises. -/
theorem xmXorMasksByte : Obligations.XmXorMasksByte := by
  refine ⟨fun d s h => ⟨s.advanced 1, ?_, s.advanced_phase_toNat, rfl⟩, fun d s h => ?_,
    encode_xmXor_toNat, raisesIllegal_of_row 0x31 .B 0xFFFF00 (fun _ => ⟨.xmXor _, rfl⟩) rfl⟩
  · rw [exec_xmXor_of_holdsKey ⟨h, fun _ => rfl⟩, State.complete_ok]
    rfl
  · rw [exec_xmXor_of_noKey d h, State.complete_error s (by decide)]

/-- Settles O41: the four loads leave the whole key and PHASE 0, and from there each byte meets the key
byte at its index. -/
theorem maskingLaw : Obligations.MaskingLaw := by
  intro k order p s ho hq
  obtain ⟨t, ht, -, hr⟩ := runFor_xmKey_xmBytes ho hq
  refine ⟨t, ht, hr.trans (congrArg _ (List.ext_getElem (by simp) fun n _ _ => ?_))⟩
  have hindex : BitVec.ofNat 2 (n % 4) = BitVec.ofNat 2 n := BitVec.eq_of_toNat_eq (by simp)
  simp [maskBytes, byteAnswer, hindex]

/-- Settles O42: after XM_REWIND the results meet the key bytes that made them, and XOR with the same
byte twice is no change. -/
theorem maskingInvolution : Obligations.MaskingInvolution := by
  intro k p s hq
  obtain ⟨t, ht, hk, hr⟩ := runFor_xmKey_xmBytes (order := [0, 1, 2, 3]) (.refl _) hq
  refine ⟨t, (maskBytes k 0 p).map byteAnswer, ht, hr, by simp, ?_⟩
  have hback : ((maskBytes k 0 p).map byteAnswer).map (fun r => r.result.extractLsb' 0 8) =
      maskBytes k 0 p := by
    rw [List.map_map]
    exact List.map_id'' byteAnswer_lowByte _
  rw [hback, Nat.add_comm]
  have hstep : step (t.withPorts (asInputs (.xmRewind :: xmBytes (maskBytes k 0 p))) t.responses) =
      .next (t.rewound.withPorts (asInputs (xmBytes (maskBytes k 0 p))) (t.responses ++ [⟨.ok, 0⟩])) :=
    (step_encode rfl).trans (exec_xmRewind _)
  have hunmask := runFor_xmBytes (maskBytes k 0 p) (s := t.rewound) ⟨hk.keyv, hk.keyByte⟩
    (t.responses ++ [⟨.ok, 0⟩])
  rw [maskBytes_length] at hunmask
  refine ⟨_, (runFor_succ hstep _).trans hunmask, ?_⟩
  have hself : maskBytes k t.rewound.phase (maskBytes k 0 p) = p := maskBytes_maskBytes k 0 p
  rw [hself, List.append_assoc]
  rfl

/-- Settles O39: completing with OK only adds the response, and XM_REWIND's row has format N. -/
theorem xmRewindRestartsPhase : Obligations.XmRewindRestartsPhase :=
  ⟨fun s => (exec_xmRewind s).trans (congrArg _ (s.rewound.complete_ok 0)), rfl,
    raisesIllegal_of_row 0x32 .N 0xFFFFFF (fun _ => ⟨.xmRewind, rfl⟩) rfl⟩

end Sys2Proof.Machine
end

section

/-! ## The host's steps

What one step of a session comes to, stage by stage, and what the writes of R217 and R218 come to on a
stream that takes bytes and on one that does not. -/

namespace Sys2Proof.Machine

open Sys2Proof.Config (HostParams)

/-! ### One step by the session's phase (R221) -/

section Steps

variable {p : HostParams} {x : Session}

theorem Session.step_request {lines : List (List Byte)} (hp : x.phase = .awaitingHandshake)
    (hr : x.request = some lines) : x.step p = x.handshake p lines := by
  simp only [Session.step, hp, hr]

theorem Session.step_noRequest (hp : x.phase = .awaitingHandshake) (hr : x.request = none) :
    x.step p = if x.streamEnded then x.fail .truncatedRead else .waits := by
  simp only [Session.step, hp, hr]

theorem Session.step_header (hp : x.phase = .opened .header) :
    x.step p = x.reading 2 Session.onHeader := by
  simp only [Session.step, hp, Config.headerLength]

theorem Session.step_textKey {plen : Nat} (hp : x.phase = .opened (.textKey plen)) :
    x.step p = x.reading 4 (fun y k => y.onTextKey plen k) := by
  simp only [Session.step, hp, Config.keyLength]

theorem Session.step_textPayload {plen : Nat} {masked : Bool}
    (hp : x.phase = .opened (.textPayload plen masked)) :
    x.step p = x.reading plen (fun y bs => y.onTextPayload p masked bs) := by
  simp only [Session.step, hp]

theorem Session.step_closeKey (hp : x.phase = .opened .closeKey) :
    x.step p = x.reading 4 (fun y _ => y.sendClose) := by
  simp only [Session.step, hp, Config.keyLength]

theorem Session.step_of_finished (hp : x.phase = .closed ∨ ∃ e, x.phase = .ended e) :
    x.step p = .over := by
  obtain hp | ⟨e, hp⟩ := hp <;> simp only [Session.step, hp]

theorem Session.run_succ {y : Session} (h : x.step p = .next y) (k : Nat) :
    x.run p (k + 1) = y.run p k := by
  simp only [Session.run, h]

theorem Session.run_one {y : Session} (h : x.step p = .next y) : x.run p 1 = y := x.run_succ h 0

theorem Session.run_of_over (h : x.step p = .over) (k : Nat) : x.run p k = x := by
  cases k with
  | zero => rfl
  | succ k => simp only [Session.run, h]

end Steps

/-- R220, R222: a read of more bytes than have been delivered ends the session or waits. -/
theorem Session.reading_of_short {x : Session} {n : Nat} (h : x.stream.length < n)
    (k : Session → List Byte → SessionOutcome) :
    x.reading n k = if x.streamEnded then x.fail .truncatedRead else .waits := by
  rw [Session.reading, Session.read, if_neg (Nat.not_le.mpr h)]
  cases x.streamEnded <;> rfl

/-- R220: a write goes out and leaves the phase, or ends the session and puts out nothing. -/
theorem Session.write_eq (x : Session) (bytes : List Byte) :
    x.write bytes = .next { x with
      phase := if x.writeFails then .ended .writeFailed else x.phase
      written := if x.writeFails then x.written else x.written ++ bytes } := by
  cases h : x.writeFails with
  | false => rw [Session.write_of_open h]; simp [h]
  | true => rw [Session.write_of_failing h]; simp [h]

/-! ### One command (R210) -/

theorem issue_of_answered {i : Instr} {b : State} {r : Word} (h : exec i b = .next (b.answered r)) :
    issue i b = some (⟨.ok, r⟩, b.answered r) :=
  issue_of_exec (decode_encode i) h rfl

/-- R102: every command gives the host a response. -/
theorem issue_answers (i : Instr) (b : State) : ∃ r t, issue i b = some (r, t) := by
  obtain ⟨u, st, r, hx, hu, -⟩ := exec_answers i b
  exact ⟨⟨st, r⟩, _, issue_of_exec (decode_encode i) hx (congrArg (· ++ _) hu.ports.2.2)⟩

/-! ### Headers (R216) -/

section Headers

variable {p : HostParams} {x : Session} {hb0 hb1 : Byte} {rest : List Byte}

/-- R216: the host goes by what FHC_DEC answers. -/
theorem Session.onHeader_of_issue {bytes : List Byte} {r : Response} {b : State}
    (hi : issue (.fhcDec (bytes.getD 0 0) (bytes.getD 1 0)) x.block = some (r, b)) :
    x.onHeader bytes =
      if r.status = .unknownOpcode then Session.fail { x with block := b } .unknownOpCode
      else Session.dispatch { x with block := b } r.result := by
  rw [Session.onHeader, hi]

/-- R216: a header that has come is decoded in one step. -/
theorem Session.step_header_of_issue {r : Response} {b : State} (hp : x.phase = .opened .header)
    (hs : x.stream = hb0 :: hb1 :: rest) (hi : issue (.fhcDec hb0 hb1) x.block = some (r, b)) :
    x.step p =
      if r.status = .unknownOpcode then
        Session.fail { x with stream := rest, block := b } .unknownOpCode
      else Session.dispatch { x with stream := rest, block := b } r.result := by
  rw [Session.step_header hp, Session.reading_of_delivered (bytes := [hb0, hb1]) hs (n := 2) rfl]
  exact Session.onHeader_of_issue hi

theorem Session.step_header_of_known (hp : x.phase = .opened .header)
    (hs : x.stream = hb0 :: hb1 :: rest) (hk : headerOpn hb0 ∈ [1#4, 8#4, 9#4, 10#4]) :
    x.step p = Session.dispatch
      { x with stream := rest, block := x.block.answered (decodeImage hb0 hb1) }
      (decodeImage hb0 hb1) :=
  Session.step_header_of_issue hp hs (issue_of_answered (exec_fhcDec_of_known hk hb1 x.block))

theorem Session.step_header_of_unknown (hp : x.phase = .opened .header)
    (hs : x.stream = hb0 :: hb1 :: rest) (hk : headerOpn hb0 ∉ [1#4, 8#4, 9#4, 10#4]) :
    x.step p = .next { x with
      phase := .ended .unknownOpCode
      stream := rest
      block := x.block.erred .unknownOpcode (decodeImage hb0 hb1) } :=
  Session.step_header_of_issue hp hs
    (issue_of_exec (decode_encode _) (exec_fhcDec_of_unknown hk hb1 x.block) rfl)

theorem Session.dispatch_text (h : headerOpn hb0 = 1) (hb1 : Byte) (x : Session) :
    x.dispatch (decodeImage hb0 hb1) = .next { x with
      phase := .opened (if headerMask hb1 = 1#1 then .textKey (headerPlen hb1).toNat
        else .textPayload (headerPlen hb1).toNat false) } := by
  simp only [Session.dispatch, decodeImage_mask, decodeImage_plen, decodeImage_opk, h]
  rfl

theorem Session.dispatch_close (h : headerOpn hb0 = 8) (hb1 : Byte) (x : Session) :
    x.dispatch (decodeImage hb0 hb1) =
      if headerMask hb1 = 1#1 then .next { x with phase := .opened .closeKey } else x.sendClose := by
  simp only [Session.dispatch, decodeImage_mask, decodeImage_plen, decodeImage_opk, h]
  rfl

theorem Session.dispatch_ignored (h : headerOpn hb0 ∈ [9#4, 10#4]) (hb1 : Byte) (x : Session) :
    x.dispatch (decodeImage hb0 hb1) = .next { x with phase := .opened .header } := by
  have hcode : ∀ opn ∈ [9#4, 10#4], kindCode (frameKind opn) ≠ kindCode (some .text) ∧
      kindCode (frameKind opn) ≠ kindCode (some .close) := by decide
  obtain ⟨htext, hclose⟩ := hcode _ h
  simp only [Session.dispatch, decodeImage_opk, htext, hclose, if_false]

end Headers

/-! ### The answers the host writes (R217, R218) -/

theorem Session.sendClose_of_issue {x : Session} {r : Response} {b : State}
    (hi : issue .fhcEncClose x.block = some (r, b)) :
    x.sendClose = Session.write { x with phase := .closed, block := b } (headerBytes r.result) := by
  rw [Session.sendClose, hi]

theorem Session.sendClose_eq (x : Session) : x.sendClose = .next { x with
    phase := if x.writeFails then .ended .writeFailed else .closed
    written := if x.writeFails then x.written else x.written ++ [0x88, 0x00]
    block := x.block.answered 0x00008800 } := by
  rw [Session.sendClose_of_issue (issue_of_answered (exec_fhcEncClose x.block))]
  exact Session.write_eq _ _

/-- R167: the second header byte of a text of up to 127 bytes is its length. -/
theorem zero_append_lowBits {n : Nat} (h : n ≤ 127) :
    (0#1 ++ (BitVec.ofNat 16 n).extractLsb' 0 7 : Byte) = BitVec.ofNat 8 n := by
  apply BitVec.eq_of_toNat_eq
  rw [toNat_zero_append, toNat_lowBits_of_le] <;> simp <;> omega

theorem pack2_textHeader {n : Nat} (h : n ≤ 127) :
    pack2 0x81 (BitVec.ofNat 8 n) = BitVec.ofNat 32 (0x8100 + n) := by
  apply BitVec.eq_of_toNat_eq
  rw [pack2_toNat]
  simp
  omega

/-- R217: the session once it has handed `text` on and answered it with the fixed reply. -/
def Session.replied (p : HostParams) (x : Session) (text : List Byte) : Session :=
  { x with
    phase := if x.writeFails then .ended .writeFailed else .opened .header
    texts := x.texts ++ [text]
    written :=
      if x.writeFails then x.written
      else x.written ++ [0x81, BitVec.ofNat 8 p.reply.length] ++ p.reply
    block := x.block.answered (BitVec.ofNat 32 (0x8100 + p.reply.length)) }

theorem Session.replyTo_of_issue {p : HostParams} {x : Session} {text : List Byte} {r : Response}
    {b : State} (h : validUtf8 text = true)
    (hi : issue (.fhcEncText (BitVec.ofNat 16 p.reply.length)) x.block = some (r, b)) :
    x.replyTo p text = Session.write
      { x with phase := .opened .header, texts := x.texts ++ [text], block := b }
      (headerBytes r.result ++ p.reply) := by
  rw [Session.replyTo, h, hi]
  rfl

theorem Session.replyTo_of_valid {p : HostParams} {text : List Byte} (h : validUtf8 text = true)
    (hl : p.reply.length ≤ 127) (x : Session) : x.replyTo p text = .next (x.replied p text) := by
  have hlen : (BitVec.ofNat 16 p.reply.length).toNat ≤ 127 := by simp; omega
  have hissue := issue_of_answered (exec_fhcEncText_of_le hlen x.block)
  rw [zero_append_lowBits hl] at hissue
  rw [Session.replyTo_of_issue h hissue, Session.write_eq, headerBytes, pack2_hb0, pack2_hb1,
    ← List.append_assoc, pack2_textHeader hl]
  rfl

theorem Session.replyTo_of_invalid {text : List Byte} (h : validUtf8 text = false) (p : HostParams)
    (x : Session) : x.replyTo p text = .next { x with phase := .ended .invalidUtf8Payload } := by
  rw [Session.replyTo, h]
  rfl

end Sys2Proof.Machine
end

section

/-! ## The client key among the request's lines (R213) -/

namespace Sys2Proof.Machine

open Sys2Proof.Config (KeyMatch)

/-! ### What follows the name in one line -/

section Line

variable {name line : List Byte}

theorem afterPrefix_append (name rest : List Byte) : afterPrefix name (name ++ rest) = some rest := by
  rw [afterPrefix, if_pos (List.isPrefixOf_iff_prefix.mpr (List.prefix_append name rest)),
    List.drop_left]

theorem afterPrefix_of_not_prefix (h : ¬ name <+: line) : afterPrefix name line = none := by
  rw [afterPrefix, if_neg (mt List.isPrefixOf_iff_prefix.mp h)]

theorem afterSubstring_of_prefix {rest : List Byte} (h : afterPrefix name line = some rest) :
    afterSubstring name line = some rest := by
  cases line with
  | nil => exact h
  | cons b line => simp only [afterSubstring, h]

theorem afterSubstring_cons (b : Byte) (h : ¬ name <+: b :: line) :
    afterSubstring name (b :: line) = afterSubstring name line := by
  simp only [afterSubstring, afterPrefix_of_not_prefix h]

theorem afterSubstring_of_not_infix (h : ¬ name <:+: line) : afterSubstring name line = none := by
  induction line with
  | nil => exact afterPrefix_of_not_prefix fun hp => h hp.isInfix
  | cons b line ih =>
    rw [afterSubstring_cons b fun hp => h hp.isInfix]
    exact ih fun hi => h (hi.trans (List.suffix_cons b line).isInfix)

/-- The name's first place in a line is the one with no earlier place. -/
theorem afterSubstring_append {pre rest : List Byte}
    (h : ∀ n < pre.length, ¬ name <+: (pre ++ (name ++ rest)).drop n) :
    afterSubstring name (pre ++ (name ++ rest)) = some rest := by
  induction pre with
  | nil => exact afterSubstring_of_prefix (afterPrefix_append name rest)
  | cons b pre ih =>
    have hzero : ¬ name <+: b :: (pre ++ (name ++ rest)) := h 0 (Nat.zero_lt_succ _)
    rw [List.cons_append, afterSubstring_cons b hzero]
    exact ih fun n hn => h (n + 1) (Nat.succ_lt_succ hn)

end Line

/-! ### The first line that carries the name -/

/-- R213: what follows the name in a line, if the line carries it by the host's KEY_MATCH. -/
def afterName (km : KeyMatch) (line : List Byte) : Option (List Byte) :=
  match km with
  | .exactPrefix => afterPrefix keyHeader line
  | .substring => afterSubstring keyHeader line

theorem findKey_eq (km : KeyMatch) (lines : List (List Byte)) :
    findKey km lines =
      lines.findSome? fun line => (afterName km line).map (List.dropWhile isSpaceByte) := rfl

theorem afterName_append (km : KeyMatch) (rest : List Byte) :
    afterName km (keyHeader ++ rest) = some rest := by
  cases km with
  | exactPrefix => exact afterPrefix_append keyHeader rest
  | substring => exact afterSubstring_of_prefix (afterPrefix_append keyHeader rest)

theorem afterName_of_not_infix (km : KeyMatch) {line : List Byte} (h : ¬ keyHeader <:+: line) :
    afterName km line = none := by
  cases km with
  | exactPrefix => exact afterPrefix_of_not_prefix fun hp => h hp.isInfix
  | substring => exact afterSubstring_of_not_infix h

theorem findKey_cons_of_some {km : KeyMatch} {line rest : List Byte} (h : afterName km line = some rest)
    (lines : List (List Byte)) :
    findKey km (line :: lines) = some (rest.dropWhile isSpaceByte) := by
  rw [findKey_eq, List.findSome?_cons, h]
  rfl

theorem findKey_cons_of_none {km : KeyMatch} {line : List Byte} (h : afterName km line = none)
    (lines : List (List Byte)) : findKey km (line :: lines) = findKey km lines := by
  rw [findKey_eq, List.findSome?_cons, h]
  rfl

/-- R213: lines that do not carry the name are passed over. -/
theorem findKey_append (km : KeyMatch) {before : List (List Byte)}
    (h : ∀ line ∈ before, ¬ keyHeader <:+: line) (lines : List (List Byte)) :
    findKey km (before ++ lines) = findKey km lines := by
  induction before with
  | nil => rfl
  | cons line before ih =>
    obtain ⟨hline, hbefore⟩ := List.forall_mem_cons.mp h
    rw [List.cons_append, findKey_cons_of_none (afterName_of_not_infix km hline), ih hbefore]

/-- R213: leading spaces are dropped, up to the key's first byte. -/
theorem dropWhile_spaces {k : List Byte} (h : ∀ b, k.head? = some b → isSpaceByte b = false)
    (spaces : Nat) : (List.replicate spaces 0x20#8 ++ k).dropWhile isSpaceByte = k := by
  have hspace : ∀ b ∈ List.replicate spaces 0x20#8, isSpaceByte b = true := by
    intro b hb
    rw [List.eq_of_mem_replicate hb]
    rfl
  rw [List.dropWhile_append_of_pos hspace]
  cases k with
  | nil => rfl
  | cons b k => exact List.dropWhile_cons_of_neg (ne_true_of_eq_false (h b rfl))

/-- R213: the key of the line that carries the name. -/
theorem findKey_cons_of_spaces {km : KeyMatch} {line k : List Byte} {spaces : Nat}
    (h : afterName km line = some (List.replicate spaces 0x20#8 ++ k))
    (hk : ∀ b, k.head? = some b → isSpaceByte b = false) (lines : List (List Byte)) :
    findKey km (line :: lines) = some k := by
  rw [findKey_cons_of_some h, dropWhile_spaces hk]

end Sys2Proof.Machine
end

section

/-! ## The host's command sequences

`issueAll` hands one command at a time to a block whose queue may hold anything; it comes to the same as
a run of the block over those commands alone, so that the laws about runs hold of it. -/

namespace Sys2Proof.Machine

/-! ### Commands do not look at the queue -/

/-- An outcome's next state with `q` as its queue. -/
def withQueue (q : List Input) : Host.Outcome State Fault Refusal → Host.Outcome State Fault Refusal
  | .next t => .next { t with inputs := q }
  | .fault f => .fault f
  | .refused r => .refused r

/-- Every test that a command makes is of the block's own elements. -/
theorem exec_withQueue (i : Instr) (s : State) (q : List Input) :
    exec i { s with inputs := q } = withQueue q (exec i s) := by
  cases i with
  | hashFinal =>
    have hfinal : respond ({ s with inputs := q } : State).finalized .ok 0 =
        withQueue q (respond s.finalized .ok 0) := by
      rw [State.finalized_withInputs]
      generalize s.finalized = u
      rfl
    simp only [exec, execHashFinal, apply_ite (withQueue q), hfinal]
    rfl
  | hashAbsorb | hashRddig | hashRdacc | fhcDec | fhcEncText | xmXor =>
    simp only [exec, execHashAbsorb, execHashRddig, execHashRdacc, execFhcDec, execFhcEncText,
      execXmXor, apply_ite (withQueue q)]
    rfl
  | _ => rfl

/-! ### A sequence of commands -/

/-- R62, R210: what the host gets from the commands it issues, and the block it leaves, are those of a run
over the commands, apart from the queue, which it leaves as it was. -/
theorem issueAll_run (is : List Instr) (b : State) :
    ∃ rs t, issueAll is b = some (rs, t) ∧
      runFor is.length { b with inputs := asInputs is } = .next { t with inputs := [] } ∧
      t.inputs = b.inputs ∧ t.responses = b.responses ++ rs := by
  induction is generalizing b with
  | nil => exact ⟨[], b, rfl, rfl, rfl, (List.append_nil _).symm⟩
  | cons i is ih =>
    obtain ⟨u, st, r, hx, hu, -⟩ := exec_answers i b
    obtain ⟨-, hin, hresp⟩ := hu.ports
    have hr : (u.complete st r).responses = b.responses ++ [⟨st, r⟩] := congrArg (· ++ _) hresp
    obtain ⟨rs, t, hall, hrun, hint, hrespt⟩ := ih (u.complete st r)
    have hstep : step { b with inputs := asInputs (i :: is) } =
        .next { u.complete st r with inputs := asInputs is } := by
      rw [step_encode (rest := asInputs is) rfl]
      exact (exec_withQueue i b _).trans (congrArg _ hx)
    refine ⟨_, t, issueAll_cons (issue_of_exec (decode_encode i) hx hr) hall, ?_,
      hint.trans hin, ?_⟩
    · exact (runFor_succ hstep _).trans hrun
    · rw [hrespt, hr, List.append_assoc]
      rfl

/-- The host's results from a run over its commands alone. -/
theorem issueAll_of_runFor {is : List Instr} {b u : State} {rs : List Response}
    (h : runFor is.length (b.withPorts (asInputs is) b.responses) =
      .next (u.withPorts [] (b.responses ++ rs))) :
    issueAll is b = some (rs, u.withPorts b.inputs (b.responses ++ rs)) := by
  obtain ⟨rs', t, hall, hrun, hin, hresp⟩ := issueAll_run is b
  have ht : u.withPorts [] (b.responses ++ rs) = { t with inputs := [] } :=
    Host.Outcome.next.inj (h.symm.trans hrun)
  have hu : u.withPorts t.inputs (b.responses ++ rs) = t :=
    congrArg (fun s : State => { s with inputs := t.inputs }) ht
  obtain rfl : rs = rs' := List.append_cancel_left ((congrArg State.responses ht).trans hresp)
  rw [hall, ← hin, hu]

/-! ### The handshake's commands (R211) -/

/-- R136: the state once HASH_INIT, the bytes of `k` and HASH_FINAL have run, before the responses. -/
def State.digested (s : State) (k : List Byte) : State := (s.started.pushAll k true).finalized

theorem State.digested_hst (s : State) (k : List Byte) : (s.digested k).hst = .done :=
  State.finalized_hst _

theorem State.digested_h {k : List Byte} (hk : k.length + 36 < 2 ^ 61) (s : State) :
    (s.digested k).h = sha1 (k ++ guid) :=
  State.started_finalized_h (by omega) s

theorem State.digested_mbytes {k : List Byte} (hk : k.length + 36 < 2 ^ 61) (s : State) :
    (s.digested k).mbytes.toNat = k.length + 36 := by
  have hcount := State.started_pushAll_mbytes (m := k) (by omega) s
  rw [State.digested, State.finalized_mbytes, BitVec.toNat_add, hcount]
  exact Nat.mod_eq_of_lt hk

/-- R277: the SHA commands change the hasher's elements and nothing else. -/
theorem State.digested_eq_with (s : State) (k : List Byte) :
    s.digested k = { s with
      h := (s.digested k).h, buf := (s.digested k).buf, blen := 0,
      mbytes := (s.digested k).mbytes, hst := .done } := by
  have hframe := s.started.pushAll_frame k true
  have hfinal := (s.started.pushAll k true).finalized_eq_with
  rw [State.finalized_blen, State.finalized_hst, hframe.key, hframe.keyv, hframe.phase, hframe.errlog,
    hframe.inputs, hframe.responses] at hfinal
  exact hfinal

/-- R136: HASH_FINAL's pushes do not look at the ports. -/
theorem State.finalized_withPorts (s : State) (q : List Input) (rs : List Response) :
    (s.withPorts q rs).finalized = s.finalized.withPorts q rs := by
  have htail : (s.withPorts q rs).absorbTail = s.absorbTail.withPorts q rs := by
    have hbytes : (s.withPorts q rs).tailBytes = s.tailBytes := by
      simp only [State.tailBytes, State.withPorts]
    rw [State.absorbTail_eq_withCount, State.absorbTail_eq_withCount, hbytes,
      State.pushAll_withPorts, State.pushAll_withPorts]
    rfl
  rw [State.finalized, State.finalized, htail]
  generalize s.absorbTail = t
  rfl

theorem State.digested_withPorts (s : State) (k : List Byte) (q : List Input) (rs : List Response) :
    (s.withPorts q rs).digested k = (s.digested k).withPorts q rs := by
  have hstarted : (s.withPorts q rs).started = s.started.withPorts q rs := rfl
  rw [State.digested, hstarted, State.pushAll_withPorts, State.finalized_withPorts, State.digested]

theorem State.withPorts_withPorts (s : State) (q q' : List Input) (rs rs' : List Response) :
    (s.withPorts q rs).withPorts q' rs' = s.withPorts q' rs' := rfl

/-- R141: HASH_ACCEPT's commands digest the key and answer (OK, 0) each time; this is the whole state
that `runFor_hashAccept` describes. -/
theorem runFor_hashAccept_digested {k : List Byte} {s : State} {rest : List Input}
    (hk : k.length + 36 ≤ Config.mbytesMax) (hq : s.inputs = asInputs (hashAccept k) ++ rest) :
    runFor (k.length + 2) s = .next ((s.digested k).withPorts rest
      (s.responses ++ List.replicate (k.length + 2) ⟨.ok, 0⟩)) := by
  have hq' : s.inputs =
      asInputs (.hashInit :: hashKey k) ++ (.command (encode .hashFinal) :: rest) := by
    rw [hq]
    simp [asInputs, hashAccept]
  have hfinal := step_hashFinal (State.pushAll_frame k true s.started).hst rest
    (s.responses ++ List.replicate (k.length + 1) ⟨.ok, 0⟩)
  rw [State.finalized_withPorts] at hfinal
  refine (runFor_add (k.length + 1) 1 (runFor_hashInit_hashKey hk hq')).trans
    ((runFor_succ hfinal 0).trans ?_)
  rw [List.replicate_succ' (n := k.length + 1), ← List.append_assoc, State.digested]
  generalize (s.started.pushAll k true).finalized = t
  rfl

/-- R140: what HASH_RDACC_ALL answers in DONE. -/
def acceptAnswers (c : Chain) : List Response :=
  [0#3, 1, 2, 3, 4, 5, 6].map fun idx => ⟨.ok, acceptGroup (acceptChars c) idx⟩

theorem acceptAnswers_bytes (c : Chain) :
    (acceptAnswers c).flatMap (fun r => wordBytes r.result) = acceptChars c := by
  rw [acceptAnswers, List.flatMap_map]
  exact flatMap_acceptGroup (acceptChars_length c)

/-- R141: the host's commands for a key, on a block in any state. -/
theorem issueAll_handshake {k : List Byte} (hk : k.length + 36 ≤ Config.mbytesMax) (b : State) :
    ∃ resp, issueAll (hashAccept k ++ hashRdaccAll) b =
      some (List.replicate (k.length + 2) ⟨.ok, 0⟩ ++ acceptAnswers (b.digested k).h,
        (b.digested k).withPorts b.inputs resp) := by
  have haccept := runFor_hashAccept_digested (rest := asInputs hashRdaccAll) hk
    (s := b.withPorts (asInputs (hashAccept k ++ hashRdaccAll)) b.responses) List.map_append
  rw [State.digested_withPorts, State.withPorts_withPorts] at haccept
  have hdone := b.digested_hst k
  have hlen : (hashAccept k ++ hashRdaccAll).length = k.length + 2 + 7 := by
    simp [hashAccept, hashKey, hashRdaccAll]
  generalize b.digested k = t at *
  have hread := runFor_hashRdacc (idxs := [0, 1, 2, 3, 4, 5, 6]) (rest := []) (by decide)
    (s := t.withPorts (asInputs hashRdaccAll)
      (b.responses ++ List.replicate (k.length + 2) ⟨.ok, 0⟩)) (List.append_nil _).symm hdone
  have hrun := (runFor_add (k.length + 2) 7 haccept).trans hread
  rw [← hlen, State.withPorts_withPorts] at hrun
  refine ⟨_, issueAll_of_runFor (hrun.trans ?_)⟩
  rw [← List.append_assoc]
  rfl

/-! ### The masker's commands (R217) -/

/-- R193, R217: the state once the host has loaded the key `k`. -/
def State.keyLoaded (s : State) (k : BitVec 2 → Byte) : State :=
  (s.loadKeys k [0, 1, 2, 3]).withPorts s.inputs (s.responses ++ List.replicate 4 ⟨.ok, 0⟩)

theorem issueAll_xmKey4 (k : BitVec 2 → Byte) (b : State) :
    issueAll (xmKey4 (k 0) (k 1) (k 2) (k 3)) b =
      some (List.replicate 4 ⟨.ok, 0⟩, b.keyLoaded k) := by
  have hrun := runFor_xmKey (k := k) [0, 1, 2, 3] (rest := [])
    (s := b.withPorts (asInputs (xmKey4 (k 0) (k 1) (k 2) (k 3))) b.responses) rfl
  rw [State.loadKeys_withPorts, State.withPorts_withPorts] at hrun
  exact issueAll_of_runFor hrun

theorem State.keyLoaded_holdsKey (s : State) (k : BitVec 2 → Byte) : (s.keyLoaded k).HoldsKey k :=
  have h := s.loadKeys_holdsKey k (order := [0, 1, 2, 3]) (by decide)
  ⟨h.keyv, h.keyByte⟩

theorem State.keyLoaded_phase (s : State) (k : BitVec 2 → Byte) : (s.keyLoaded k).phase = 0 :=
  s.loadKeys_phase k (order := [0, 1, 2, 3]) (.inl (by decide))

/-- R194, R217: the state once the host has put the payload `bytes` through the masker. -/
def State.unmasked (s : State) (k : BitVec 2 → Byte) (bytes : List Byte) : State :=
  (s.advanced (BitVec.ofNat 2 bytes.length)).withPorts s.inputs
    (s.responses ++ (maskBytes k s.phase bytes).map byteAnswer)

theorem issueAll_xmBytes {b : State} {k : BitVec 2 → Byte} (hk : b.HoldsKey k) (bytes : List Byte) :
    issueAll (xmBytes bytes) b =
      some ((maskBytes k b.phase bytes).map byteAnswer, b.unmasked k bytes) := by
  have hlen : (xmBytes bytes).length = bytes.length := List.length_map _
  have hrun := runFor_xmBytes bytes hk b.responses
  refine issueAll_of_runFor ?_
  rw [hlen]
  exact hrun

theorem State.loadKeys_eq_with (s : State) (k : BitVec 2 → Byte) (order : List (BitVec 2)) :
    s.loadKeys k order = { s with
      key := (s.loadKeys k order).key
      keyv := (s.loadKeys k order).keyv
      phase := (s.loadKeys k order).phase } := by
  induction order generalizing s with
  | nil => rfl
  | cons j order ih =>
    rw [State.loadKeys_cons, ih]
    rfl

theorem State.keyLoaded_unmasked_keyByte (s : State) (k : BitVec 2 → Byte) (bytes : List Byte)
    (j : BitVec 2) : ((s.keyLoaded k).unmasked k bytes).keyByte j = k j :=
  (s.keyLoaded_holdsKey k).keyByte j

/-- R190: a payload's key indices, counted modulo 4, are those of the phase from 0 on. -/
theorem mapIdx_eq_maskBytes (k : BitVec 2 → Byte) (p : List Byte) :
    p.mapIdx (fun n b => b ^^^ k (BitVec.ofNat 2 (n % 4))) = maskBytes k 0 p := by
  refine List.ext_getElem (by simp) fun n _ _ => ?_
  have hindex : BitVec.ofNat 2 (n % 4) = BitVec.ofNat 2 n := BitVec.eq_of_toNat_eq (by simp)
  simp [maskBytes, hindex]

/-- R193, R194: a key load and a payload change the masker's elements and nothing else. -/
theorem State.keyLoaded_unmasked_eq_with (s : State) (k : BitVec 2 → Byte) (bytes : List Byte) :
    (s.keyLoaded k).unmasked k bytes = { s with
      key := ((s.keyLoaded k).unmasked k bytes).key
      keyv := 0b1111#4
      phase := BitVec.ofNat 2 bytes.length
      responses := ((s.keyLoaded k).unmasked k bytes).responses } := by
  have hframe := s.loadKeys_eq_with k [0, 1, 2, 3]
  have hkeyv := (s.loadKeys_holdsKey k (order := [0, 1, 2, 3]) (by decide)).keyv
  have hphase := s.loadKeys_phase k (order := [0, 1, 2, 3]) (.inl (by decide))
  rw [hkeyv, hphase] at hframe
  have hadvanced : 0#2 + BitVec.ofNat 2 bytes.length = BitVec.ofNat 2 bytes.length := BitVec.zero_add _
  rw [State.keyLoaded, ← hadvanced]
  generalize s.loadKeys k [0, 1, 2, 3] = t at hframe ⊢
  rw [hframe]
  rfl

end Sys2Proof.Machine
end

section

/-! ## The handshake and the Text frame's steps -/

namespace Sys2Proof.Machine

open Sys2Proof.Config (HostParams)

/-! ### The handshake (R211 to R215) -/

section Handshake

variable {p : HostParams} {lines : List (List Byte)}

theorem Session.handshake_of_wrongLine (h : lines.head? ≠ some requestLine) (x : Session) :
    x.handshake p lines = Session.write { x with phase := .closed } notFoundBytes := by
  rw [Session.handshake, if_pos h]

theorem Session.handshake_of_noKey (h : lines.head? = some requestLine)
    (hk : findKey p.keyMatch lines = none) (x : Session) :
    x.handshake p lines = .next { x with phase := .opened .header } := by
  rw [Session.handshake, if_neg (not_not_intro h), hk]

theorem Session.handshake_of_issue {k : List Byte} {x : Session} {rs : List Response} {b : State}
    (h : lines.head? = some requestLine) (hk : findKey p.keyMatch lines = some k)
    (hi : issueAll (hashAccept k ++ hashRdaccAll) x.block = some (rs, b)) :
    x.handshake p lines = Session.write { x with phase := .opened .header, block := b }
      (switchingBytes
        ((rs.drop (hashAccept k).length).flatMap fun r => wordBytes r.result)) := by
  rw [Session.handshake, if_neg (not_not_intro h), hk]
  dsimp only
  rw [hi]

/-- R141, R211: with a key the host writes the 101 response around the key's accept value. -/
theorem Session.handshake_of_key {k : List Byte} (h : lines.head? = some requestLine)
    (hk : findKey p.keyMatch lines = some k) (hlen : k.length + 36 ≤ Config.mbytesMax) (x : Session) :
    ∃ resp, x.handshake p lines = Session.write
      { x with
        phase := .opened .header
        block := (x.block.digested k).withPorts x.block.inputs resp }
      (switchingBytes (acceptChars (x.block.digested k).h)) := by
  obtain ⟨resp, hissue⟩ := issueAll_handshake hlen x.block
  have hdrop : (hashAccept k).length =
      (List.replicate (k.length + 2) (⟨.ok, 0⟩ : Response)).length := by simp [hashAccept, hashKey]
  refine ⟨resp, ?_⟩
  rw [Session.handshake_of_issue h hk hissue, hdrop, List.drop_left, acceptAnswers_bytes]

/-- R214: the 101 response in two pieces around the accept value. -/
theorem switchingBytes_eq (accept : List Byte) : switchingBytes accept =
    utf8Bytes ("HTTP/1.1 101 Switching Protocols\r\nUpgrade: websocket\r\n" ++
      "Connection: Upgrade\r\nSec-WebSocket-Accept: ").toList ++ accept ++
      utf8Bytes "\r\n\r\n".toList := by
  have hhead : utf8Bytes "HTTP/1.1 101 Switching Protocols".toList ++ crlf ++
      utf8Bytes "Upgrade: websocket".toList ++ crlf ++ utf8Bytes "Connection: Upgrade".toList ++ crlf ++
      utf8Bytes "Sec-WebSocket-Accept: ".toList =
      utf8Bytes ("HTTP/1.1 101 Switching Protocols\r\nUpgrade: websocket\r\n" ++
        "Connection: Upgrade\r\nSec-WebSocket-Accept: ").toList := by decide
  have htail : crlf ++ crlf = utf8Bytes "\r\n\r\n".toList := by decide
  rw [switchingBytes, hhead, List.append_assoc _ crlf crlf, htail]

end Handshake

/-! ### The Text frame's key and payload (R217) -/

section Text

variable {p : HostParams} {x : Session} {plen : Nat} {k : BitVec 2 → Byte} {bytes rest : List Byte}

theorem Session.onTextKey_of_issue {key : List Byte} {rs : List Response} {b : State}
    (hi : issueAll (xmKey4 (key.getD 0 0) (key.getD 1 0) (key.getD 2 0) (key.getD 3 0)) x.block =
      some (rs, b)) :
    x.onTextKey plen key = .next { x with phase := .opened (.textPayload plen true), block := b } := by
  rw [Session.onTextKey, hi]

theorem Session.step_textKey_of_delivered (hp : x.phase = .opened (.textKey plen))
    (hs : x.stream = k 0 :: k 1 :: k 2 :: k 3 :: rest) :
    x.step p = .next { x with
      phase := .opened (.textPayload plen true), stream := rest, block := x.block.keyLoaded k } := by
  rw [Session.step_textKey hp,
    Session.reading_of_delivered (bytes := [k 0, k 1, k 2, k 3]) hs (n := 4) rfl]
  exact Session.onTextKey_of_issue (issueAll_xmKey4 k x.block)

theorem Session.step_textPayload_of_masked (hp : x.phase = .opened (.textPayload bytes.length true))
    (hs : x.stream = bytes ++ rest) (hk : x.block.HoldsKey k) :
    x.step p = Session.replyTo p
      { x with stream := rest, block := x.block.unmasked k bytes } (maskBytes k x.block.phase bytes) := by
  have hback : ((maskBytes k x.block.phase bytes).map byteAnswer).map
      (fun r => r.result.extractLsb' 0 8) = maskBytes k x.block.phase bytes := by
    rw [List.map_map]
    exact List.map_id'' byteAnswer_lowByte _
  rw [Session.step_textPayload hp, Session.reading_of_delivered hs rfl, Session.onTextPayload,
    if_pos rfl]
  dsimp only
  rw [issueAll_xmBytes hk]
  dsimp only
  rw [hback]

theorem Session.step_textPayload_of_unmasked (hp : x.phase = .opened (.textPayload bytes.length false))
    (hs : x.stream = bytes ++ rest) :
    x.step p = Session.replyTo p { x with stream := rest } bytes := by
  rw [Session.step_textPayload hp, Session.reading_of_delivered hs rfl]
  rfl

end Text

/-- R164: MASK of a header's second byte. -/
theorem headerMask_ofNat (n : Nat) : headerMask (BitVec.ofNat 8 n) = 1#1 ↔ n / 128 % 2 = 1 := by
  rw [← BitVec.toNat_inj, headerMask, BitVec.extractLsb'_toNat, BitVec.toNat_ofNat,
    Nat.shiftRight_eq_div_pow, BitVec.toNat_ofNat]
  omega

/-- R164: PLEN of a header's second byte. -/
theorem headerPlen_ofNat (n : Nat) : (headerPlen (BitVec.ofNat 8 n)).toNat = n % 128 := by
  rw [headerPlen, BitVec.extractLsb'_toNat, BitVec.toNat_ofNat, Nat.shiftRight_zero]
  omega

/-! ### The whole Text frame (R216, R217) -/

section TextFrame

variable {p : HostParams} {x y : Session} {hb0 : Byte} {k : BitVec 2 → Byte} {bytes rest : List Byte}

/-- R217: from its header on, a masked Text frame comes to the reply to its unmasked payload. -/
theorem Session.run_maskedText (hp : x.phase = .opened .header) (hopn : headerOpn hb0 = 1)
    (hlen : bytes.length ≤ 127)
    (hs : x.stream = hb0 :: BitVec.ofNat 8 (0x80 + bytes.length) :: k 0 :: k 1 :: k 2 :: k 3 ::
      (bytes ++ rest))
    (hy : Session.replyTo p
      { x with
        phase := .opened (.textPayload bytes.length true)
        stream := rest
        block := ((x.block.answered (decodeImage hb0 (BitVec.ofNat 8 (0x80 + bytes.length)))).keyLoaded
          k).unmasked k bytes }
      (maskBytes k 0 bytes) = .next y) :
    x.run p 3 = y := by
  have hheader := Session.step_header_of_known (p := p) hp hs (by simp [hopn])
  have hmask := (headerMask_ofNat (0x80 + bytes.length)).mpr (by omega)
  have hplen : (0x80 + bytes.length) % 128 = bytes.length := by omega
  rw [Session.dispatch_text hopn, if_pos hmask, headerPlen_ofNat, hplen] at hheader
  rw [Session.run_succ hheader, Session.run_succ (Session.step_textKey_of_delivered rfl rfl)]
  refine Session.run_one ((Session.step_textPayload_of_masked rfl rfl
    (State.keyLoaded_holdsKey _ k)).trans ?_)
  rw [State.keyLoaded_phase]
  exact hy

/-- R217, C3: from its header on, an unmasked Text frame comes to the reply to its payload. -/
theorem Session.run_unmaskedText (hp : x.phase = .opened .header) (hopn : headerOpn hb0 = 1)
    (hlen : bytes.length ≤ 127) (hs : x.stream = hb0 :: BitVec.ofNat 8 bytes.length :: (bytes ++ rest))
    (hy : Session.replyTo p
      { x with
        phase := .opened (.textPayload bytes.length false)
        stream := rest
        block := x.block.answered (decodeImage hb0 (BitVec.ofNat 8 bytes.length)) } bytes = .next y) :
    x.run p 2 = y := by
  have hheader := Session.step_header_of_known (p := p) hp hs (by simp [hopn])
  have hmask : ¬ headerMask (BitVec.ofNat 8 bytes.length) = 1#1 :=
    mt (headerMask_ofNat bytes.length).mp (by omega)
  have hplen : bytes.length % 128 = bytes.length := by omega
  rw [Session.dispatch_text hopn, if_neg hmask, headerPlen_ofNat, hplen] at hheader
  rw [Session.run_succ hheader]
  exact Session.run_one ((Session.step_textPayload_of_unmasked rfl rfl).trans hy)

end TextFrame

end Sys2Proof.Machine
end

section

/-! ## Writes that fail (R220)

A step on a stream that takes no bytes is the step on one that takes them, except that a write ends the
session in its place. This is proved of each of the session's operations in turn. -/

namespace Sys2Proof.Machine

open Sys2Proof.Config (HostParams)

/-- The session on a stream whose writes fail, or do not. -/
def Session.withWriteFails (x : Session) (fails : Bool) : Session := { x with writeFails := fails }

/-- What an outcome on a stream that takes bytes becomes once writes fail, for a session that had written
`before`. -/
def SessionOutcome.onFailing (before : List Byte) : SessionOutcome → SessionOutcome
  | .next y => .next (if y.written = before then y.withWriteFails true
      else { y with phase := .ended .writeFailed, written := before, writeFails := true })
  | .waits => .waits
  | .over => .over
  | .blockStopped => .blockStopped

/-- At `x`, once writes fail, `f` does as it would on a stream that takes bytes, but for its writes. -/
def EndsOnFailedWriteAt (f : Session → SessionOutcome) (x : Session) : Prop :=
  f (x.withWriteFails true) = (f (x.withWriteFails false)).onFailing x.written

/-- At every session `f` ends on a failed write, and goes on as it would without one. -/
def EndsOnFailedWrite (f : Session → SessionOutcome) : Prop := ∀ x, EndsOnFailedWriteAt f x

theorem SessionOutcome.onFailing_of_noWrite {y : Session} {before : List Byte} (h : y.written = before) :
    (SessionOutcome.next y).onFailing before = .next (y.withWriteFails true) := by
  rw [SessionOutcome.onFailing, if_pos h]

theorem SessionOutcome.onFailing_of_write {y : Session} {before : List Byte} (h : y.written ≠ before) :
    (SessionOutcome.next y).onFailing before =
      .next { y with phase := .ended .writeFailed, written := before, writeFails := true } := by
  rw [SessionOutcome.onFailing, if_neg h]

theorem SessionOutcome.onFailing_eq_next {o : SessionOutcome} {before : List Byte} {y : Session}
    (h : o.onFailing before = .next y) : y.written = before ∧ y.writeFails = true := by
  cases o with
  | next z =>
    by_cases hz : z.written = before
    · cases (SessionOutcome.onFailing_of_noWrite hz).symm.trans h
      exact ⟨hz, rfl⟩
    · cases (SessionOutcome.onFailing_of_write hz).symm.trans h
      exact ⟨rfl, rfl⟩
  | _ => cases h

theorem notFoundBytes_ne_nil : notFoundBytes ≠ [] := by decide

theorem switchingBytes_ne_nil (accept : List Byte) : switchingBytes accept ≠ [] := by
  simp [switchingBytes, crlf]

/-- R217: a payload comes to the reply to one text, and both the text and the block left depend on the
block and the payload only. -/
theorem Session.onTextPayload_replies (p : HostParams) (masked : Bool) (payload : List Byte) (b : State) :
    ∃ t text, ∀ x : Session, x.block = b →
      x.onTextPayload p masked payload = Session.replyTo p { x with block := t } text := by
  cases masked with
  | false => exact ⟨b, payload, fun x hx => by rw [← hx]; rfl⟩
  | true =>
    obtain ⟨rs, t, hi, -⟩ := issueAll_run (xmBytes payload) b
    refine ⟨t, rs.map (fun r => r.result.extractLsb' 0 8), fun x hx => ?_⟩
    rw [Session.onTextPayload, if_pos rfl, hx, hi]

namespace EndsOnFailedWrite

/-- What comes, at one session, to an operation at another that has written the same. -/
theorem of_eq {f g : Session → SessionOutcome} {x y : Session} (hg : EndsOnFailedWrite g)
    (hw : y.written = x.written)
    (h : ∀ fails, f (x.withWriteFails fails) = g (y.withWriteFails fails)) :
    EndsOnFailedWriteAt f x := by
  rw [EndsOnFailedWriteAt, h, h, hg y, hw]

/-! ### Endings and writes -/

theorem next : EndsOnFailedWrite .next := fun _ => (SessionOutcome.onFailing_of_noWrite rfl).symm

theorem finished : EndsOnFailedWrite fun _ => .over := fun _ => rfl

theorem fail (e : FatalError) : EndsOnFailedWrite (·.fail e) := fun x => next { x with phase := .ended e }

/-- R220, R222: what a read that falls short comes to. -/
theorem fail_or_wait (streamEnded : Bool) :
    EndsOnFailedWrite fun x => if streamEnded then x.fail .truncatedRead else .waits := by
  cases streamEnded with
  | true => exact fail .truncatedRead
  | false => exact fun _ => rfl

theorem write {bytes : List Byte} (h : bytes ≠ []) : EndsOnFailedWrite (·.write bytes) := by
  intro x
  have hgrows : x.written ++ bytes ≠ x.written := fun hc => h (List.append_right_eq_self.mp hc)
  have hopen := Session.write_of_open (x := x.withWriteFails false) rfl bytes
  have hfail := Session.write_of_failing (x := x.withWriteFails true) rfl bytes
  rw [EndsOnFailedWriteAt, hopen, hfail, SessionOutcome.onFailing_of_write hgrows]
  rfl

/-! ### Answers and the handshake -/

theorem sendClose : EndsOnFailedWrite Session.sendClose := by
  intro x
  obtain ⟨r, b, hi⟩ := issue_answers .fhcEncClose x.block
  exact of_eq (y := { x with phase := .closed, block := b }) (write (List.cons_ne_nil _ _)) rfl
    fun _ => Session.sendClose_of_issue hi

theorem replyTo (p : HostParams) (text : List Byte) : EndsOnFailedWrite (·.replyTo p text) := by
  intro x
  cases hvalid : validUtf8 text with
  | false =>
    exact of_eq (y := x) (fail .invalidUtf8Payload) rfl
      fun _ => Session.replyTo_of_invalid hvalid p _
  | true =>
    obtain ⟨r, b, hi⟩ := issue_answers (.fhcEncText (BitVec.ofNat 16 p.reply.length)) x.block
    exact of_eq (y := { x with phase := .opened .header, texts := x.texts ++ [text], block := b })
      (write (List.cons_ne_nil _ _)) rfl fun _ => Session.replyTo_of_issue hvalid hi

theorem handshake (p : HostParams) (lines : List (List Byte)) :
    EndsOnFailedWrite (·.handshake p lines) := by
  intro x
  by_cases hline : lines.head? = some requestLine
  · cases hk : findKey p.keyMatch lines with
    | none =>
      exact of_eq (y := { x with phase := .opened .header }) next rfl
        fun _ => Session.handshake_of_noKey hline hk _
    | some k =>
      obtain ⟨rs, b, hi, -⟩ := issueAll_run (hashAccept k ++ hashRdaccAll) x.block
      exact of_eq (y := { x with phase := .opened .header, block := b })
        (write (switchingBytes_ne_nil _)) rfl
        fun _ => Session.handshake_of_issue hline hk hi
  · exact of_eq (y := { x with phase := .closed }) (write notFoundBytes_ne_nil) rfl
      fun _ => Session.handshake_of_wrongLine hline _

/-! ### Frames -/

theorem dispatch (image : Word) : EndsOnFailedWrite (·.dispatch image) := by
  intro x
  dsimp only [EndsOnFailedWriteAt, Session.dispatch]
  split
  · exact next { x with phase := .opened _ }
  · split
    · split
      · exact next { x with phase := .opened .closeKey }
      · exact sendClose x
    · exact next { x with phase := .opened .header }

theorem onHeader (bytes : List Byte) : EndsOnFailedWrite (·.onHeader bytes) := by
  intro x
  obtain ⟨r, b, hi⟩ := issue_answers (.fhcDec (bytes.getD 0 0) (bytes.getD 1 0)) x.block
  by_cases hr : r.status = .unknownOpcode
  · exact of_eq (y := { x with block := b }) (fail .unknownOpCode) rfl
      fun fails => (Session.onHeader_of_issue (x := x.withWriteFails fails) hi).trans (if_pos hr)
  · exact of_eq (y := { x with block := b }) (dispatch r.result) rfl
      fun fails => (Session.onHeader_of_issue (x := x.withWriteFails fails) hi).trans (if_neg hr)

theorem onTextKey (plen : Nat) (k : List Byte) : EndsOnFailedWrite (·.onTextKey plen k) := by
  intro x
  obtain ⟨rs, b, hi, -⟩ :=
    issueAll_run (xmKey4 (k.getD 0 0) (k.getD 1 0) (k.getD 2 0) (k.getD 3 0)) x.block
  exact of_eq (y := { x with phase := .opened (.textPayload plen true), block := b }) next rfl
    fun _ => Session.onTextKey_of_issue hi

theorem onTextPayload (p : HostParams) (masked : Bool) (payload : List Byte) :
    EndsOnFailedWrite (·.onTextPayload p masked payload) := by
  intro x
  obtain ⟨b, text, hreply⟩ := Session.onTextPayload_replies p masked payload x.block
  exact of_eq (y := { x with block := b }) (replyTo p text) rfl fun _ => hreply _ rfl

/-! ### One step -/

theorem reading (n : Nat) {k : Session → List Byte → SessionOutcome}
    (h : ∀ bytes, EndsOnFailedWrite (k · bytes)) : EndsOnFailedWrite (·.reading n k) := by
  intro x
  by_cases hn : n ≤ x.stream.length
  · exact of_eq (y := { x with stream := x.stream.drop n }) (h (x.stream.take n)) rfl
      fun fails => Session.reading_of_delivered (x := x.withWriteFails fails)
        (List.take_append_drop n x.stream).symm (List.length_take_of_le hn) k
  · exact of_eq (y := x) (fail_or_wait x.streamEnded) rfl
      fun fails => Session.reading_of_short (x := x.withWriteFails fails) (Nat.lt_of_not_le hn) k

theorem step (p : HostParams) : EndsOnFailedWrite (Session.step p) := by
  intro x
  cases hp : x.phase with
  | awaitingHandshake =>
    cases hr : x.request with
    | some lines =>
      exact of_eq (y := x) (handshake p lines) rfl fun _ => Session.step_request hp hr
    | none =>
      exact of_eq (y := x) (fail_or_wait x.streamEnded) rfl fun _ => Session.step_noRequest hp hr
  | opened stage =>
    cases stage with
    | header => exact of_eq (y := x) (reading 2 onHeader) rfl fun _ => Session.step_header hp
    | textKey plen =>
      exact of_eq (y := x) (reading 4 (onTextKey plen)) rfl fun _ => Session.step_textKey hp
    | textPayload plen masked =>
      exact of_eq (y := x) (reading plen (onTextPayload p masked)) rfl
        fun _ => Session.step_textPayload hp
    | closeKey =>
      exact of_eq (y := x) (reading 4 fun _ => sendClose) rfl fun _ => Session.step_closeKey hp
  | closed => exact of_eq (y := x) finished rfl fun _ => Session.step_of_finished (.inl hp)
  | ended e => exact of_eq (y := x) finished rfl fun _ => Session.step_of_finished (.inr ⟨e, hp⟩)

end EndsOnFailedWrite

/-- R220: the reply to a payload on a stream that takes no bytes ends the session. -/
theorem Session.replyTo_of_failing {x : Session} (h : x.writeFails = true) (p : HostParams)
    (text : List Byte) : ∃ y, x.replyTo p text = .next y ∧
      (y.phase = .ended .writeFailed ∨ y.phase = .ended .invalidUtf8Payload) := by
  cases hvalid : validUtf8 text with
  | false => exact ⟨_, Session.replyTo_of_invalid hvalid p x, .inr rfl⟩
  | true =>
    obtain ⟨r, b, hi⟩ := issue_answers (.fhcEncText (BitVec.ofNat 16 p.reply.length)) x.block
    exact ⟨_, (Session.replyTo_of_issue hvalid hi).trans (Session.write_of_failing
      (x := { x with phase := _, texts := _, block := b }) h _), .inl rfl⟩

end Sys2Proof.Machine
end

section

/-! ## The obligations of spec/45_host_protocol.md -/

namespace Sys2Proof.Machine

/-- Settles O48: the host compares the first line, and writes the 404 bytes or fails. -/
theorem wrongRequestLineRejected : Obligations.WrongRequestLineRejected := by
  intro p x line lines hp hr hne
  have hline : (line :: lines).head? ≠ some requestLine := fun h => hne (Option.some.inj h)
  rw [Session.step_request hp hr, Session.handshake_of_wrongLine hline]
  exact ⟨fun hw => Session.write_of_open (x := { x with phase := .closed }) hw _,
    fun hw => Session.write_of_failing (x := { x with phase := .closed }) hw _⟩

/-- Settles O49: lines without the name are passed over, and in the line that carries it the key is what
follows the name's first place, at the line's start or later. -/
theorem keyFoundInHeaderLine : Obligations.KeyFoundInHeaderLine := by
  refine ⟨fun km before after spaces k hbefore hk => ⟨?_, ?_⟩, ?_⟩
  · have hfound := afterName_append km (List.replicate spaces 0x20 ++ k)
    rw [← List.append_assoc] at hfound
    exact (findKey_append km hbefore _).trans (findKey_cons_of_spaces hfound hk after)
  · rw [← List.append_nil before]
    exact findKey_append km hbefore []
  · intro before after pre spaces k hbefore hk line hpre hfirst
    have hline : line = pre ++ (keyHeader ++ (List.replicate spaces 0x20 ++ k)) :=
      congrArg (pre ++ ·) (List.append_assoc _ _ _)
    have hfound : afterName .substring line = some (List.replicate spaces 0x20 ++ k) := by
      rw [hline] at hfirst ⊢
      exact afterSubstring_append hfirst
    have hmissed : afterName .exactPrefix line = none :=
      afterPrefix_of_not_prefix (hfirst 0 (List.length_pos_iff.mpr hpre))
    exact ⟨(findKey_append _ hbefore _).trans (findKey_cons_of_spaces hfound hk after),
      (findKey_append _ hbefore _).trans (findKey_cons_of_none hmissed after)⟩

/-- Settles O50: HASH_ACCEPT leaves the digest of the key and the GUID, HASH_RDACC_ALL reads its accept
value, and the write of the 101 response goes out or fails. -/
theorem handshakeAcceptsKey : Obligations.HandshakeAcceptsKey := by
  intro p x lines k hp hr hk hlen
  have hlim : k.length + 36 ≤ Config.mbytesMax := by simp only [Config.mbytesMax]; omega
  have hline : (utf8Bytes "GET /ws HTTP/1.1".toList :: lines).head? = some requestLine := rfl
  obtain ⟨resp, hx⟩ := Session.handshake_of_key hline hk hlim x
  have hh : (x.block.digested k).h = sha1 (k ++ guid) := State.digested_h (by omega) _
  have hcount := State.digested_mbytes (k := k) (by omega) x.block
  have hframe := x.block.digested_eq_with k
  rw [← Session.step_request hp hr, switchingBytes_eq, hh] at hx
  generalize x.block.digested k = t at *
  exact ⟨t.withPorts x.block.inputs resp, hh, hcount,
    congrArg (·.withPorts x.block.inputs resp) hframe,
    fun hw => hx.trans (Session.write_of_open
      (x := { x with phase := .opened .header, block := t.withPorts x.block.inputs resp }) hw _),
    fun hw => hx.trans (Session.write_of_failing
      (x := { x with phase := .opened .header, block := t.withPorts x.block.inputs resp }) hw _)⟩

/-- Settles O51: without a key the host issues no command and writes nothing. -/
theorem missingKeyFallsThrough : Obligations.MissingKeyFallsThrough := fun _ x _ hp hr hk =>
  (Session.step_request hp hr).trans (Session.handshake_of_noKey rfl hk x)

/-- Settles O52: FHC_DEC answers an unknown opcode with an error, and the host ends. -/
theorem unknownOpcodeEndsSession : Obligations.UnknownOpcodeEndsSession :=
  fun _ _ _ _ _ hp hs hk => Session.step_header_of_unknown hp hs hk

/-- Settles O53: an unmasked Close is answered at its header, a masked one once its key has been read. -/
theorem closeFrameAnswered : Obligations.CloseFrameAnswered := by
  intro p x hb0 hb1 k0 k1 k2 k3 rest hp (hopn : headerOpn hb0 = 8#4)
  have hknown : headerOpn hb0 ∈ [1#4, 8#4, 9#4, 10#4] := by simp [hopn]
  refine ⟨fun (hmask : headerMask hb1 = 0#1) hs => ?_, fun (hmask : headerMask hb1 = 1#1) hs => ?_⟩
  · rw [Session.step_header_of_known hp hs hknown, Session.dispatch_close hopn,
      if_neg (by rw [hmask]; decide), Session.sendClose_eq]
  · have hheader := Session.step_header_of_known (p := p) hp hs hknown
    rw [Session.dispatch_close hopn, if_pos hmask] at hheader
    rw [Session.run_succ hheader]
    exact Session.run_one ((Session.step_closeKey rfl).trans
      ((Session.reading_of_delivered (bytes := [k0, k1, k2, k3]) rfl rfl _).trans
        (Session.sendClose_eq _)))

/-- Settles O54: the header's command is all the host does for a Ping or a Pong. -/
theorem pingAndPongIgnored : Obligations.PingAndPongIgnored := by
  intro p x hb0 hb1 rest hp hs (hopn : headerOpn hb0 ∈ [9#4, 10#4])
  rw [Session.step_header_of_known hp hs (by simp at hopn ⊢; tauto), Session.dispatch_ignored hopn,
    ← hp]

/-- Settles O55: the header's, the key's and the payload's step, whose results are the text, as the payload
is the text put through the masker. -/
theorem maskedTextFrameAnswered : Obligations.MaskedTextFrameAnswered := by
  intro p x hb0 k text rest hp (hopn : headerOpn hb0 = 1#4) hlen hs
  have hlength := maskBytes_length k 0 text
  have hcount : BitVec.ofNat 2 (text.length % 4) = BitVec.ofNat 2 (maskBytes k 0 text).length :=
    BitVec.eq_of_toNat_eq (by simp)
  rw [mapIdx_eq_maskBytes k text, ← hlength] at hs
  have hreply := fun y => Session.run_maskedText (p := p) (y := y) hp hopn (hlength.le.trans hlen) hs
  rw [maskBytes_maskBytes] at hreply
  have hkey := State.keyLoaded_unmasked_keyByte (x.block.answered
    (decodeImage hb0 (BitVec.ofNat 8 (0x80 + (maskBytes k 0 text).length)))) k (maskBytes k 0 text)
  have hframe := State.keyLoaded_unmasked_eq_with (x.block.answered
    (decodeImage hb0 (BitVec.ofNat 8 (0x80 + (maskBytes k 0 text).length)))) k (maskBytes k 0 text)
  rw [hcount]
  generalize State.unmasked _ k (maskBytes k 0 text) = b at *
  exact ⟨b, hkey, hframe, fun hvalid hl => hreply _ (Session.replyTo_of_valid hvalid hl _),
    fun hinvalid => hreply _ (Session.replyTo_of_invalid hinvalid p _)⟩

/-- Settles O56: each stage reads as many bytes as the statement gives it. -/
theorem shortReadWaitsOrEnds : Obligations.ShortReadWaitsOrEnds := by
  intro p x stage hp hshort
  have hstep : x.step p = if x.streamEnded then x.fail .truncatedRead else .waits := by
    cases stage with
    | header => rw [Session.step_header hp, Session.reading_of_short hshort]
    | textKey => rw [Session.step_textKey hp, Session.reading_of_short hshort]
    | textPayload => rw [Session.step_textPayload hp, Session.reading_of_short hshort]
    | closeKey => rw [Session.step_closeKey hp, Session.reading_of_short hshort]
  exact ⟨fun h => hstep.trans (if_neg (ne_true_of_eq_false h)), fun h => hstep.trans (if_pos h)⟩

/-- Settles O57: the header's step and the payload's, whose bytes are used as they are. -/
theorem unmaskedTextPayloadHandled : Obligations.UnmaskedTextPayloadHandled := by
  refine ⟨fun p x hb0 text rest hp (hopn : headerOpn hb0 = 1#4) hlen hs =>
    ⟨fun hvalid hl => ?_, fun hinvalid => ?_⟩, fun p x text rest hp hs =>
    ⟨fun hvalid hl => ?_, fun hinvalid => ?_⟩⟩
  · exact Session.run_unmaskedText hp hopn hlen hs (Session.replyTo_of_valid hvalid hl _)
  · exact Session.run_unmaskedText hp hopn hlen hs (Session.replyTo_of_invalid hinvalid p _)
  · exact (Session.step_textPayload_of_unmasked hp hs).trans (Session.replyTo_of_valid hvalid hl _)
  · exact (Session.step_textPayload_of_unmasked hp hs).trans (Session.replyTo_of_invalid hinvalid p _)

/-- Settles O58: no step leaves these phases. -/
theorem endedSessionDoesNothing : Obligations.EndedSessionDoesNothing := fun _ _ k hp =>
  ⟨Session.step_of_finished hp, Session.run_of_over (Session.step_of_finished hp) k⟩

/-- Settles O59: each step on a stream that takes no bytes is `onFailing` of the step on one that does; the
answers to a Close and to a payload are writes. -/
theorem failedWriteEndsSession : Obligations.FailedWriteEndsSession := by
  intro p x hw
  have hx : x.withWriteFails true = x := by rw [← hw]; rfl
  have hstep := EndsOnFailedWrite.step p x
  rw [EndsOnFailedWriteAt, hx] at hstep
  refine ⟨fun y hy => SessionOutcome.onFailing_eq_next (hstep.symm.trans hy), fun y hy => ?_,
    fun hp hn => ?_, fun plen masked hp hn => ?_⟩
  · rw [Session.withWriteFails, hy] at hstep
    split
    · next hsame => exact hstep.trans (SessionOutcome.onFailing_of_noWrite hsame)
    · next hgrows => exact hstep.trans (SessionOutcome.onFailing_of_write hgrows)
  · rw [Session.step_closeKey hp, Session.reading_of_delivered
      (List.take_append_drop 4 x.stream).symm (List.length_take_of_le hn), Session.sendClose_eq]
    exact ⟨_, rfl, if_pos hw⟩
  · obtain ⟨b, text, hreply⟩ := Session.onTextPayload_replies p masked (x.stream.take plen) x.block
    rw [Session.step_textPayload hp, Session.reading_of_delivered
      (List.take_append_drop plen x.stream).symm (List.length_take_of_le hn),
      hreply { x with stream := x.stream.drop plen } rfl]
    exact Session.replyTo_of_failing (x := { x with stream := _, block := b }) hw p text

end Sys2Proof.Machine
end

section

/-! ## The obligations of spec/60_exceptions.md -/

namespace Sys2Proof.Machine

/-- R244: a command is completed with OK, or refused with result 0 and no update; the one other answer is
FHC_DEC's, E_UNKNOWN_OPCODE with the decode image. -/
theorem exec_ok_or_refused_or_unknownOpcode (i : Instr) (s : State) :
    (∃ (u : State) (r : Word), exec i s = .next (u.complete .ok r) ∧ u.responses = s.responses) ∨
    (∃ st, exec i s = .next (s.complete st 0) ∧ st ≠ .ok ∧ st ≠ .unknownOpcode) ∨
    ∃ hb0 hb1, i = .fhcDec hb0 hb1 ∧
      exec i s = .next (s.complete .unknownOpcode (decodeImage hb0 hb1)) := by
  cases i with
  | hashAbsorb d =>
    by_cases hst : s.hst = .absorb
    · cases hl : s.atLengthLimit with
      | false => exact .inl ⟨_, _, exec_hashAbsorb_of_absorb d hst hl, rfl⟩
      | true => exact .inr (.inl ⟨_, exec_hashAbsorb_of_limit d hst hl, by decide⟩)
    · exact .inr (.inl ⟨_, exec_hashAbsorb_of_ne d hst, by decide⟩)
  | hashFinal =>
    by_cases hst : s.hst = .absorb
    · exact .inl ⟨_, _, exec_hashFinal_of_absorb hst, s.finalized_responses⟩
    · exact .inr (.inl ⟨_, exec_hashFinal_of_ne hst, by decide⟩)
  | hashRddig idx =>
    cases hi : digestIndexOk idx with
    | false => exact .inr (.inl ⟨_, exec_hashRddig_of_range hi, by decide⟩)
    | true =>
      by_cases hst : s.hst = .done
      · exact .inl ⟨_, _, exec_hashRddig_of_done hi hst, rfl⟩
      · exact .inr (.inl ⟨_, exec_hashRddig_of_ne hi hst, by decide⟩)
  | hashRdacc idx =>
    cases hi : acceptIndexOk idx with
    | false => exact .inr (.inl ⟨_, exec_hashRdacc_of_range hi, by decide⟩)
    | true =>
      by_cases hst : s.hst = .done
      · exact .inl ⟨_, _, exec_hashRdacc_of_done hi hst, rfl⟩
      · exact .inr (.inl ⟨_, exec_hashRdacc_of_ne hi hst, by decide⟩)
  | fhcDec hb0 hb1 =>
    by_cases hk : headerOpn hb0 ∈ [1#4, 8#4, 9#4, 10#4]
    · exact .inl ⟨s, _, exec_fhcDec_of_known hk hb1 s, rfl⟩
    · exact .inr (.inr ⟨hb0, hb1, rfl, exec_fhcDec_of_unknown hk hb1 s⟩)
  | fhcEncText len =>
    by_cases hl : len.toNat ≤ 127
    · exact .inl ⟨s, _, exec_fhcEncText_of_le hl s, rfl⟩
    · exact .inr (.inl ⟨.length, exec_fhcEncText_of_gt (Nat.not_le.mp hl) s, by decide⟩)
  | xmXor d =>
    by_cases hk : s.keyv = 0b1111#4
    · exact .inl ⟨_, _, exec_xmXor_of_loaded d hk, rfl⟩
    · exact .inr (.inl ⟨_, exec_xmXor_of_noKey d hk, by decide⟩)
  | nop | stat | hashInit | fhcEncClose | xmKey | xmRewind => exact .inl ⟨_, _, rfl, rfl⟩

/-- Settles O16: a word that is no command is answered E_ILLEGAL, and a command by one of the three
answers that R244 allows. -/
theorem errorChangesOnlyErrlog : Obligations.ErrorChangesOnlyErrlog := by
  intro cmd s
  cases hd : decode cmd with
  | error e =>
    exact ⟨_, ⟨.illegal, 0⟩, runCommand_of_illegal hd s, rfl, fun _ => ⟨rfl, fun _ => rfl, nofun⟩⟩
  | ok i =>
    rw [runCommand_of_decode hd]
    rcases exec_ok_or_refused_or_unknownOpcode i s with
      ⟨u, r, hx, hr⟩ | ⟨st, hx, hok, hun⟩ | ⟨hb0, hb1, rfl, hx⟩
    · exact ⟨_, ⟨.ok, r⟩, hx, congrArg (· ++ [_]) hr, fun h => absurd rfl h⟩
    · exact ⟨_, ⟨st, 0⟩, hx, rfl,
        fun _ => ⟨s.complete_error hok 0, fun _ => rfl, fun h => absurd h hun⟩⟩
    · exact ⟨_, ⟨.unknownOpcode, _⟩, hx, rfl, fun h =>
        ⟨s.complete_error h _, fun h => absurd rfl h, fun _ => ⟨hb0, hb1, rfl, rfl⟩⟩⟩

/-- Settles O18: each pair of conditions is one that its command's own obligation already orders. -/
theorem errorPriority : Obligations.ErrorPriority := by
  obtain ⟨hdig, -, hdigIll⟩ := hashRddigReadsDigest
  obtain ⟨hacc, -, haccIll⟩ := hashRdaccReadsAccept
  obtain ⟨-, habsorb, -⟩ := hashAbsorbTakesByte
  obtain ⟨-, -, hdecIll⟩ := fhcDecAnswersFields
  obtain ⟨-, -, -, htextIll⟩ := fhcEncTextEncodesHeader
  obtain ⟨-, -, -, hxorIll⟩ := xmXorMasksByte
  refine ⟨fun idx s h => ?_, fun idx s h => ?_, habsorb, hdigIll, haccIll, htextIll, hdecIll, hxorIll⟩
  · simpa only [if_pos h] using hdig idx s
  · simpa only [if_pos h] using hacc idx s

/-- Settles O10: with no input to take, the step gives the state back. -/
theorem idleBlockHoldsState : Obligations.IdleBlockHoldsState := fun _ => step_no_input

end Sys2Proof.Machine
end

section

/-! ## The obligations of spec/70_reset_and_hazards.md

A command reads and writes the elements of its own unit, and besides them only the error log and the
responses, to both of which it adds. Distinct units have no element in common, so it makes no difference
which of two commands goes first. -/

namespace Sys2Proof.Machine

/-! ### The elements of a unit (R20) -/

/-- `t` with the elements of the unit `x` as they are in `s`. FHC holds none (R38), and ERRLOG, the core's
one element, is left out: every command may add to it. -/
def State.withElements (t : State) (x : BlockUnit) (s : State) : State :=
  match x with
  | .sha => { t with h := s.h, buf := s.buf, blen := s.blen, mbytes := s.mbytes, hst := s.hst }
  | .xm => { t with key := s.key, keyv := s.keyv, phase := s.phase }
  | .core | .fhc => t

theorem State.withElements_self (s : State) (x : BlockUnit) : s.withElements x s = s := by
  cases x <;> rfl

theorem State.withElements_responses (t : State) (x : BlockUnit) (s : State) :
    (t.withElements x s).responses = t.responses := by
  cases x <;> rfl

theorem State.complete_withElements (t : State) (st : Status) (r : Word) (x : BlockUnit) (s : State) :
    (t.complete st r).withElements x s = (t.withElements x s).complete st r := by
  cases x <;> rfl

/-- R20: distinct units have no element in common. -/
theorem State.withElements_comm {x y : BlockUnit} (hxy : x ≠ y) (t u v : State) :
    (t.withElements x u).withElements y v = (t.withElements y v).withElements x u := by
  cases x with
  | core | fhc => rfl
  | sha =>
    cases y with
    | sha => exact absurd rfl hxy
    | _ => rfl
  | xm =>
    cases y with
    | xm => exact absurd rfl hxy
    | _ => rfl

/-- R130: pushes read and write the hasher's elements only. -/
theorem State.pushAll_withElements (bs : List Byte) (c : Bool) (t s : State) :
    (t.withElements .sha s).pushAll bs c = t.withElements .sha (s.pushAll bs c) := by
  induction bs generalizing s with
  | nil => rfl
  | cons b bs ih => exact ih (s.push b c)

/-- R136: HASH_FINAL's pushes read and write the hasher's elements only. -/
theorem State.finalized_withElements (t s : State) :
    (t.withElements .sha s).finalized = t.withElements .sha s.finalized := by
  have htail : (t.withElements .sha s).absorbTail = t.withElements .sha s.absorbTail := by
    have hbytes : (t.withElements .sha s).tailBytes = s.tailBytes := rfl
    rw [State.absorbTail_eq_withCount, State.absorbTail_eq_withCount, hbytes,
      State.pushAll_withElements, State.pushAll_withElements]
    rfl
  rw [State.finalized, State.finalized, htail]
  generalize s.absorbTail = u
  rfl

/-! ### A command and its own unit -/

/-- `i` does the same in every state that has the elements of `i`'s unit as in `s`: the same update of
those elements, and the same answer. -/
def ActsOnOwnUnit (i : Instr) (s : State) : Prop :=
  ∃ (u : State) (st : Status) (r : Word), ∀ t : State,
    exec i (t.withElements i.unit s) = .next ((t.withElements i.unit u).complete st r)

theorem actsOnOwnUnit_of_sha {i : Instr} (hi : i.unit = .sha) (s : State) : ActsOnOwnUnit i s := by
  cases i with
  | hashInit => exact ⟨s.started, .ok, 0, fun _ => rfl⟩
  | hashAbsorb d =>
    by_cases hst : s.hst = .absorb
    · cases hl : s.atLengthLimit with
      | false => exact ⟨s.push d true, .ok, 0, fun t =>
          exec_hashAbsorb_of_absorb (s := t.withElements .sha s) d hst hl⟩
      | true => exact ⟨s, .hashOverflow, 0, fun _ => exec_hashAbsorb_of_limit d hst hl⟩
    · exact ⟨s, .hashState, 0, fun _ => exec_hashAbsorb_of_ne d hst⟩
  | hashFinal =>
    by_cases hst : s.hst = .absorb
    · refine ⟨s.finalized, .ok, 0, fun t => ?_⟩
      have hx := exec_hashFinal_of_absorb (s := t.withElements .sha s) hst
      rwa [State.finalized_withElements] at hx
    · exact ⟨s, .hashState, 0, fun _ => exec_hashFinal_of_ne hst⟩
  | hashRddig idx =>
    cases hidx : digestIndexOk idx with
    | false => exact ⟨s, .range, 0, fun _ => exec_hashRddig_of_range hidx⟩
    | true =>
      by_cases hst : s.hst = .done
      · exact ⟨s, .ok, s.h.word idx, fun t =>
          exec_hashRddig_of_done (s := t.withElements .sha s) hidx hst⟩
      · exact ⟨s, .hashState, 0, fun _ => exec_hashRddig_of_ne hidx hst⟩
  | hashRdacc idx =>
    cases hidx : acceptIndexOk idx with
    | false => exact ⟨s, .range, 0, fun _ => exec_hashRdacc_of_range hidx⟩
    | true =>
      by_cases hst : s.hst = .done
      · exact ⟨s, .ok, acceptGroup (acceptChars s.h) idx, fun t =>
          exec_hashRdacc_of_done (s := t.withElements .sha s) hidx hst⟩
      · exact ⟨s, .hashState, 0, fun _ => exec_hashRdacc_of_ne hidx hst⟩
  | _ => cases hi

theorem actsOnOwnUnit_of_xm {i : Instr} (hi : i.unit = .xm) (s : State) : ActsOnOwnUnit i s := by
  cases i with
  | xmKey j d => exact ⟨s.loadKey j d, .ok, 0, fun _ => rfl⟩
  | xmXor d =>
    by_cases hk : s.keyv = 0b1111#4
    · exact ⟨{ s with phase := s.phase + 1 }, .ok, zext32 (d ^^^ s.keyByte s.phase), fun t =>
        exec_xmXor_of_loaded (s := t.withElements .xm s) d hk⟩
    · exact ⟨s, .noKey, 0, fun _ => exec_xmXor_of_noKey d hk⟩
  | xmRewind => exact ⟨s.rewound, .ok, 0, fun _ => rfl⟩
  | _ => cases hi

/-- R277: outside the core, every command keeps to its own unit. -/
theorem actsOnOwnUnit {i : Instr} (hi : i.unit ≠ .core) (s : State) : ActsOnOwnUnit i s := by
  cases hu : i.unit with
  | core => exact absurd hu hi
  | sha => exact actsOnOwnUnit_of_sha hu s
  | xm => exact actsOnOwnUnit_of_xm hu s
  | fhc =>
    obtain ⟨st, r, hx⟩ := exec_fhc hu
    refine ⟨s, st, r, fun t => ?_⟩
    rw [hu]
    exact hx t

/-! ### Two commands of different units -/

/-- R243: the error log is a set of bits: two statuses leave the same bits in either order. -/
theorem logStatus_comm (e : BitVec 8) (a b : Status) :
    logStatus (logStatus e a) b = logStatus (logStatus e b) a := by
  unfold logStatus
  split
  · rfl
  · split
    · rfl
    · rw [BitVec.or_assoc, BitVec.or_assoc, BitVec.or_comm (1#8 <<< a.code.toNat)]

/-- Two completions leave the same state in either order, apart from the order of the responses. -/
theorem State.complete_comm (s : State) (a b : Status) (p q : Word) :
    (s.complete a p).complete b q = { (s.complete b q).complete a p with
      responses := ((s.complete a p).complete b q).responses } := by
  rw [State.complete, State.complete_errlog, logStatus_comm]
  rfl

/-- R277: a command of the unit `y` finds its elements as a command of another unit `x` found them, and
so makes the update, and gives the answer, that it would have without that command. -/
theorem exec_then_exec {i j : Instr} {x y : BlockUnit} (hxy : x ≠ y) {s u v : State} {a b : Status}
    {p q : Word}
    (hi : ∀ t : State, exec i (t.withElements x s) = .next ((t.withElements x u).complete a p))
    (hj : ∀ t : State, exec j (t.withElements y s) = .next ((t.withElements y v).complete b q)) :
    exec i s = .next ((s.withElements x u).complete a p) ∧
      exec j ((s.withElements x u).complete a p) =
        .next ((((s.withElements x u).withElements y v).complete a p).complete b q) := by
  have hkept : ((s.withElements x u).complete a p).withElements y s =
      (s.withElements x u).complete a p := by
    rw [State.complete_withElements, State.withElements_comm hxy, State.withElements_self]
  have hfirst := hi s
  have hsecond := hj ((s.withElements x u).complete a p)
  rw [State.withElements_self] at hfirst
  rw [hkept, State.complete_withElements] at hsecond
  exact ⟨hfirst, hsecond⟩

/-- Settles O47: in either order each command makes its own update and gives its own answer, and both
the updates and the completions commute. -/
theorem unitsInterleaveFreely : Obligations.UnitsInterleaveFreely := by
  intro i j s hij hi hj
  obtain ⟨u, a, p, hxi⟩ := actsOnOwnUnit hi s
  obtain ⟨v, b, q, hxj⟩ := actsOnOwnUnit hj s
  obtain ⟨hfirst, hthen⟩ := exec_then_exec hij hxi hxj
  obtain ⟨hfirst', hthen'⟩ := exec_then_exec hij.symm hxj hxi
  refine ⟨_, _, _, _, ⟨a, p⟩, ⟨b, q⟩, hfirst, hthen, hfirst', hthen', ?_, ?_, ?_⟩
  · simp [State.withElements_responses]
  · simp [State.withElements_responses]
  · rw [State.withElements_comm hij.symm]
    exact State.complete_comm _ a b p q

end Sys2Proof.Machine
end
